-- ==== Sys2Proof/Word.lean ====
section
/-! DEFINITION. The two word types of the block (00_scope R9, R10): an 8-bit data byte and a 16-bit address. A `bit` of
the spec is a `Bool`; an unbounded `Int` of the spec is a `Nat` where it cannot be negative and an `Int` where it can. -/

namespace Sys2Proof

/-- `byte` of R10: the data width is 8 bits (R9). -/
abbrev Byte := BitVec 8

/-- `u16` of R10: the address width and the PC width are 16 bits (R9). -/
abbrev Addr := BitVec 16

end Sys2Proof
end

