-- ==== Sys2Proof/Syntax.lean ====
section
/-! DEFINITION. The values that cross the block's two interfaces (10_state R21 to R25, R34), the instructions (one
constructor per row of opcode_table.json), an instruction as it is laid out in words (`Coded`), and an invocation as the
dispatcher asks for it. -/

namespace Sys2Proof

/-- `ProcessorVariant` (R21): the strap VARIANT, and an argument of `compute`. -/
inductive ProcessorVariant where
  | nmos6502
  | cmos65c02
deriving DecidableEq, Repr

/-- `Operation` (R22). -/
inductive Operation where
  | add
  | subtract
deriving DecidableEq, Repr

/-- `direction` of a bus cycle (R34). -/
inductive Direction where
  | read
  | write
deriving DecidableEq, Repr

/-- `AluInput` (R23). Every combination of field values is a legal input. -/
structure AluInput where
  initialCarry : Bool
  accumulator  : Byte
  operand      : Byte
  decimalMode  : Bool
deriving DecidableEq, Repr

/-- `AluResult` (R25). -/
structure AluResult where
  accumulator : Byte
  negative    : Bool
  overflow    : Bool
  zero        : Bool
  carry       : Bool
deriving DecidableEq, Repr, Inhabited

/-- `BusCycle` (R34): for a Read the value is the byte read, for a Write the byte written. -/
structure BusCycle where
  address   : Addr
  value     : Byte
  direction : Direction
deriving DecidableEq, Repr

/-- The formats of 30_encoding: the 3-bit selector word of R72, and the two store formats of R73. -/
inductive Format where
  | aluSel
  | zpy
  | abs
deriving DecidableEq, Repr

/-- The index register column of R74. -/
inductive IndexReg where
  | x
  | y
deriving DecidableEq, Repr

/-- The value-source column of R74 (R125). `sFromAX` is the TAS source: S is overwritten with A AND X, then read. -/
inductive ValueSource where
  | aAndX
  | sFromAX
  | y
  | x
deriving DecidableEq, Repr

/-- The instructions: the eight selector values of R72 and the five opcode classes of R74, in the order of
opcode_table.json. An instruction carries no operand: `c`, `a`, `m` are data and not encoding (R72), and the store unit
fetches its operand bytes itself, from memory, as bus cycles (R122, R123). DEDUCED, safe (log 6). -/
inductive Instr where
  | aluAddBinNmos
  | aluAddDecNmos
  | aluSubBinNmos
  | aluSubDecNmos
  | aluAddBinCmos
  | aluAddDecCmos
  | aluSubBinCmos
  | aluSubDecCmos
  | shaZpY
  | shaAbsY
  | tasAbsY
  | shyAbsX
  | shxAbsY
deriving DecidableEq, Repr

/-- An instruction together with the operand bytes that follow its opcode byte in the instruction stream (R73). -/
structure Coded where
  instr    : Instr
  operands : List Byte
deriving DecidableEq, Repr

/-- What the dispatcher asks of the block next (R5, R160, R182). -/
inductive Invocation where
  /-- `compute(variant, operation, input)` of the Decimal ALU (R24). -/
  | compute (variant : ProcessorVariant) (operation : Operation) (input : AluInput)
  /-- The binding of R26: an ADC (`add`) or SBC (`subtract`) whose operand byte is already fetched. -/
  | bound (operation : Operation) (operand : Byte)
  /-- `execute(opcode_class, state)` of the store unit (R30), the class as its 3-bit code (R74, R77). -/
  | execute (classCode : BitVec 3)
  /-- `execute` by a dispatcher that takes the class from the opcode byte at PC (R76). -/
  | dispatch
deriving DecidableEq, Repr

end Sys2Proof
end

