-- ==== Sys2Proof/Decode.lean ====
section
/-! DEFINITION. The encodings of 30_encoding and their decoder, then the encoder. There are three word spaces: the 3-bit
selector word SEL of the ALU (R70, R72), the opcode byte with its operand bytes in the instruction stream (R73, R74) and
the 3-bit class code of the store unit (R74, R77). Decoding is total in each and rejects by name. -/

namespace Sys2Proof

/-- Why a word names no instruction. -/
inductive Reject where
  /-- There is no byte to decode. -/
  | emptyStream
  /-- The stream ends before the operand bytes of the format (R73). -/
  | truncated (instr : Instr)
  /-- An opcode byte other than the five of R74: outside the block (R77, R7). -/
  | opcodeOutsideBlock (opcode : Byte)
  /-- Class codes 101, 110, 111 (R77). -/
  | unknownOpcodeClass (code : BitVec 3)
deriving DecidableEq, Repr

/-- The words of one encoded instruction: a selector word, or bytes of the instruction stream. -/
inductive Encoding where
  | selector (sel : BitVec 3)
  | stream (bytes : List Byte)
deriving DecidableEq, Repr

/-- A decoded instruction with its operand bytes, and what follows it in the stream. -/
structure Decoded where
  coded : Coded
  rest  : List Byte
deriving DecidableEq, Repr

/-- The format of each instruction (R72, R74). -/
def Instr.format : Instr → Format
  | .aluAddBinNmos => .aluSel
  | .aluAddDecNmos => .aluSel
  | .aluSubBinNmos => .aluSel
  | .aluSubDecNmos => .aluSel
  | .aluAddBinCmos => .aluSel
  | .aluAddDecCmos => .aluSel
  | .aluSubBinCmos => .aluSel
  | .aluSubDecCmos => .aluSel
  | .shaZpY => .zpy
  | .shaAbsY => .abs
  | .tasAbsY => .abs
  | .shyAbsX => .abs
  | .shxAbsY => .abs

/-- Whether the instruction is one of the five opcode classes of the store unit (R74). -/
def Instr.isStore (i : Instr) : Bool := i.format != .aluSel

/-- Operand bytes after the opcode byte, by format (R73): the instruction length is 2 for ZPY and 3 for ABS. A selector
word has none. -/
def Format.operandBytes : Format → Nat
  | .aluSel => 0
  | .zpy => 1
  | .abs => 2

/-- Selector bit `v` (R70). -/
def variantBit : ProcessorVariant → Bool
  | .nmos6502 => false
  | .cmos65c02 => true

/-- Selector bit `o` (R70). -/
def operationBit : Operation → Bool
  | .add => false
  | .subtract => true

/-- Encoding of `direction` (R71): Read = 1, Write = 0. -/
def directionBit : Direction → Bool
  | .read => true
  | .write => false

/-- The variant a selector bit `v` stands for (R70). -/
def variantOfBit : Bool → ProcessorVariant
  | false => .nmos6502
  | true => .cmos65c02

/-- The operation a selector bit `o` stands for (R70). -/
def operationOfBit : Bool → Operation
  | false => .add
  | true => .subtract

/-- The selector word `SEL[2:0] = {v, o, d}` (R70). -/
def selWord (variant : ProcessorVariant) (operation : Operation) (decimalMode : Bool) : BitVec 3 :=
  BitVec.ofBool (variantBit variant) ++ BitVec.ofBool (operationBit operation) ++ BitVec.ofBool decimalMode

/-- ALU dispatch (R72): bit 2 is `v`, bit 1 is `o`, bit 0 is `d`. All eight values are used. -/
def decodeSel (sel : BitVec 3) : Instr :=
  match sel.getLsbD 2, sel.getLsbD 1, sel.getLsbD 0 with
  | false, false, false => .aluAddBinNmos
  | false, false, true => .aluAddDecNmos
  | false, true, false => .aluSubBinNmos
  | false, true, true => .aluSubDecNmos
  | true, false, false => .aluAddBinCmos
  | true, false, true => .aluAddDecCmos
  | true, true, false => .aluSubBinCmos
  | true, true, true => .aluSubDecCmos

/-- The opcode byte column of R74 (four of the five bytes are the spec's general knowledge, G1, D15; log 8). -/
def decodeOpcode (opcode : Byte) : Except Reject Instr :=
  if opcode = 0x93#8 then .ok .shaZpY
  else if opcode = 0x9F#8 then .ok .shaAbsY
  else if opcode = 0x9B#8 then .ok .tasAbsY
  else if opcode = 0x9C#8 then .ok .shyAbsX
  else if opcode = 0x9E#8 then .ok .shxAbsY
  else .error (.opcodeOutsideBlock opcode)

/-- The class code column of R74, and R77 for the other three codes. -/
def decodeClass (code : BitVec 3) : Except Reject Instr :=
  if code = 0b000#3 then .ok .shaZpY
  else if code = 0b001#3 then .ok .shaAbsY
  else if code = 0b010#3 then .ok .tasAbsY
  else if code = 0b011#3 then .ok .shyAbsX
  else if code = 0b100#3 then .ok .shxAbsY
  else .error (.unknownOpcodeClass code)

/-- Splits the operand bytes of the instruction's format from what follows it (R73). -/
def takeOperands (instr : Instr) (bytes : List Byte) : Except Reject Decoded :=
  if bytes.length < instr.format.operandBytes then .error (.truncated instr)
  else .ok ⟨⟨instr, bytes.take instr.format.operandBytes⟩, bytes.drop instr.format.operandBytes⟩

/-- The decoder of the instruction stream: the opcode byte tells the class, the class the length (R73). -/
def decodeStream : List Byte → Except Reject Decoded
  | [] => .error .emptyStream
  | opcode :: bytes =>
    match decodeOpcode opcode with
    | .error e => .error e
    | .ok instr => takeOperands instr bytes

/-- The decoder, on a selector word or on bytes. -/
def decode : Encoding → Except Reject Decoded
  | .selector sel => .ok ⟨⟨decodeSel sel, []⟩, []⟩
  | .stream bytes => decodeStream bytes

/-- The bytes of an instruction numbered as opcode_table.json numbers it: the first byte is the least significant. -/
def tableBytes (w : Nat) : List Byte := [BitVec.ofNat 8 w, BitVec.ofNat 8 (w / 256), BitVec.ofNat 8 (w / 65536)]

/-- The words of a table row as the decoder takes them: a value below 8 is a selector word (rows of format ALU_SEL, mask
0x7), any other is an opcode byte with operand bytes after it. The five opcode bytes are all above 7, so no value has two
readings. DESIGN CHOICE, safe (log 10). -/
def tableEncoding (nbits w : Nat) : Encoding :=
  if w % 2 ^ nbits < 8 then .selector (BitVec.ofNat 3 (w % 2 ^ nbits))
  else .stream (tableBytes (w % 2 ^ nbits))

/-- The instruction the decoder reads from a word of opcode_table.json. -/
def decodeTableWord (nbits w : Nat) : Option Instr :=
  match decode (tableEncoding nbits w) with
  | .ok d => some d.coded.instr
  | .error _ => none

/-- The selector word of each ALU instruction, the `SEL` column of R72. The store classes have none. -/
def encodeSel : Instr → Option (BitVec 3)
  | .aluAddBinNmos => some 0b000#3
  | .aluAddDecNmos => some 0b001#3
  | .aluSubBinNmos => some 0b010#3
  | .aluSubDecNmos => some 0b011#3
  | .aluAddBinCmos => some 0b100#3
  | .aluAddDecCmos => some 0b101#3
  | .aluSubBinCmos => some 0b110#3
  | .aluSubDecCmos => some 0b111#3
  | .shaZpY => none
  | .shaAbsY => none
  | .tasAbsY => none
  | .shyAbsX => none
  | .shxAbsY => none

/-- The opcode byte of each store class, the `opcode byte` column of R74. The ALU's operations have none. -/
def encodeOpcode : Instr → Option Byte
  | .aluAddBinNmos => none
  | .aluAddDecNmos => none
  | .aluSubBinNmos => none
  | .aluSubDecNmos => none
  | .aluAddBinCmos => none
  | .aluAddDecCmos => none
  | .aluSubBinCmos => none
  | .aluSubDecCmos => none
  | .shaZpY => some 0b10010011#8
  | .shaAbsY => some 0b10011111#8
  | .tasAbsY => some 0b10011011#8
  | .shyAbsX => some 0b10011100#8
  | .shxAbsY => some 0b10011110#8

/-- The class code of each store class, the `class code` column of R74. -/
def encodeClass : Instr → Option (BitVec 3)
  | .aluAddBinNmos => none
  | .aluAddDecNmos => none
  | .aluSubBinNmos => none
  | .aluSubDecNmos => none
  | .aluAddBinCmos => none
  | .aluAddDecCmos => none
  | .aluSubBinCmos => none
  | .aluSubDecCmos => none
  | .shaZpY => some 0
  | .shaAbsY => some 1
  | .tasAbsY => some 2
  | .shyAbsX => some 3
  | .shxAbsY => some 4

/-- The words of an instruction: its selector word, or its opcode byte and operand bytes (R72, R73, R74). -/
def encode (c : Coded) : Encoding :=
  match encodeSel c.instr, encodeOpcode c.instr with
  | some sel, _ => .selector sel
  | none, some opcode => .stream (opcode :: c.operands)
  | none, none => .stream c.operands

end Sys2Proof
end

