-- ==== Sys2Proof/Machine/State.lean ====
section
/-! DEFINITION. The machine's state, its updates, the two reasons a step can stop, and the state after reset. State holds
the strap VARIANT (R21), the caller's `MachineState` (R27), and the values that cross the two interfaces (R23, R25, R34)
with the invocations still to come (R182), so that one step can take an invocation and give back its results. -/

namespace Sys2Proof.Machine

/-- The sparse mapping of R27 and R33: listed addresses strictly rise, and an unlisted address holds no value (R56,
D7: never a default byte). log 2. -/
abbrev Memory := List Host.Cell

/-- The state of one instance. The registers, flags and memory have the names of R27. -/
structure State where
  /-- The strap (R21): "Immutable per emulation target". -/
  variant : ProcessorVariant
  /-- Program counter (R29). -/
  PC : Addr
  /-- Accumulator (R28). -/
  A : Byte
  /-- Index register (R28). -/
  X : Byte
  /-- Index register (R28). -/
  Y : Byte
  /-- The "stack-pointer-analog register" (R28). -/
  S : Byte
  /-- Negative flag (R31). -/
  N : Bool
  /-- Overflow flag (R31). -/
  V : Bool
  /-- Decimal mode flag (R31). -/
  D : Bool
  /-- A flag that is carried and has no effect on any rule (R31, R154). -/
  I : Bool
  /-- Zero flag (R31). -/
  Z : Bool
  /-- Carry flag (R31). -/
  C : Bool
  /-- The one address space (R33, R50). -/
  mem : Memory
  /-- The bus cycles of the last store-unit invocation, oldest first (R34). -/
  trace : List BusCycle
  /-- The input of the ALU (R23). -/
  aluIn : AluInput
  /-- The result of the last ALU invocation (R25). -/
  aluOut : AluResult
  /-- The invocations the caller has chosen and that are not yet performed, next first (R182). -/
  program : List Invocation
deriving DecidableEq, Repr

/-- Why the machine stops by itself. The block raises no exception (R150), so there is one reason, of the model. -/
inductive Fault where
  /-- Raised by `step` when no invocation is left: a program "ends when the list ends" (R182). Safe (log 4). -/
  | endOfRun
deriving DecidableEq, Repr

/-- Why an invocation ends with no result: the spec's own refusals (R152), and those of the dispatcher's side. -/
inductive Refusal where
  /-- For an arm of `exec` that has no meaning yet; no arm of this model uses it. Safe. -/
  | notModelled (mnemonic : String)
  /-- Raised by every store-unit invocation when VARIANT is CMOS65C02 (R121, R152). Safe. -/
  | storeUnitOnCMOS
  /-- Raised by an `execute` invocation with class code 101, 110 or 111 (R77, R152). Safe. -/
  | unknownOpcodeClass (code : BitVec 3)
  /-- Raised by a read of an address that `mem` does not list (R56, R152). Safe. -/
  | unmappedRead (addr : Addr)
  /-- Raised by a `dispatch` invocation when the byte at PC is none of the five opcode bytes: the spec gives it no
  meaning (R7, R77, U6). Safe (log 9). -/
  | opcodeOutsideBlock (opcode : Byte)
deriving DecidableEq, Repr

namespace State

def setPC (s : State) (pc : Addr) : State := { s with PC := pc }

def setS (s : State) (v : Byte) : State := { s with S := v }

def setMem (s : State) (m : Memory) : State := { s with mem := m }

def setTrace (s : State) (l : List BusCycle) : State := { s with trace := l }

/-- Appends a bus cycle: the trace is "append-only" (R34). -/
def addCycle (s : State) (c : BusCycle) : State := { s with trace := s.trace ++ [c] }

def setAluIn (s : State) (input : AluInput) : State := { s with aluIn := input }

def setAluOut (s : State) (result : AluResult) : State := { s with aluOut := result }

def setProgram (s : State) (l : List Invocation) : State := { s with program := l }

/-- The second line of the binding of R26: the result goes to A, N, V, Z and C, and to nothing else. -/
def bindResult (s : State) (r : AluResult) : State :=
  { s with A := r.accumulator, N := r.negative, V := r.overflow, Z := r.zero, C := r.carry }

/-- The state this model names for "after reset". The spec gives no reset value of anything (R35, R170, D10): every
register, flag and interface value is 0 and the strap is NMOS6502. DESIGN CHOICE, unsafe (log 1, log 3). Memory lists
nothing (log 2), the trace is empty (R35) and no invocation is chosen yet (log 4). -/
def reset : State where
  variant := .nmos6502
  PC := 0
  A := 0
  X := 0
  Y := 0
  S := 0
  N := false
  V := false
  D := false
  I := false
  Z := false
  C := false
  mem := []
  trace := []
  aluIn := ⟨false, 0, 0, false⟩
  aluOut := ⟨0, false, false, false, false⟩
  program := []

end State

end Sys2Proof.Machine
end

