-- ==== Sys2Proof/Machine/Operands.lean ====
section
/-! DEFINITION. The bit and nibble notation of 00_scope R11 and R12, and the operand forms: the index register and the
value-source registers of each opcode class (R74, R125) and the addresses and the value of a store (R124 to R126). -/

namespace Sys2Proof.Machine

/-- `lo(b)` of R11. -/
def lo (b : Byte) : Nat := b.toNat % 16

/-- `hi(b)` of R11. -/
def hi (b : Byte) : Nat := b.toNat / 16

/-- `bit7(b)` of R11. -/
def bit7 (b : Byte) : Bool := b.getLsbD 7

/-- `bit3(v)` of R11, for any non-negative integer. -/
def bit3 (v : Nat) : Bool := v / 8 % 2 == 1

/-- `NOT8(b)` of R12. -/
def not8 (b : Byte) : Byte := b ^^^ 0xFF#8

/-- `ValidBCD(b)` of R14. -/
def validBCD (b : Byte) : Bool := decide (lo b ≤ 9) && decide (hi b ≤ 9)

/-- The concatenation of two nibbles, `16*h + l` (R11). -/
def concatNibbles (h l : Nat) : Byte := BitVec.ofNat 8 (16 * h + l)

/-- The concatenation of two bytes, `256*hi_byte + lo_byte` (R11, R50). -/
def concatBytes (hiByte loByte : Byte) : Addr := hiByte ++ loByte

/-- The page-zero address of a byte: its high byte is zero (R75). -/
def pageZero (zp : Byte) : Addr := concatBytes 0#8 zp

/-- The value of an index register, unsigned (R74, R75). -/
def indexValue (reg : IndexReg) (s : State) : Byte :=
  match reg with
  | .x => s.X
  | .y => s.Y

/-- R125: the value-source combination `regs`, and the state after it. TAS writes S first and then reads it back. -/
def combineRegs (source : ValueSource) (s : State) : Byte × State :=
  match source with
  | .aAndX => (s.A &&& s.X, s)
  | .sFromAX => let s' := s.setS (s.A &&& s.X); (s'.S, s')
  | .y => (s.Y, s)
  | .x => (s.X, s)

/-- `h1`, the "base_hi_incremented" of R124; it wraps. -/
def highIncremented (baseHi : Byte) : Byte := baseHi + 1#8

/-- `sum_lo` of R124, an `Int` from 0 to 510. -/
def lowSum (baseLo index : Byte) : Nat := baseLo.toNat + index.toNat

/-- `ea_lo` of R124. -/
def lowAddress (baseLo index : Byte) : Byte := BitVec.ofNat 8 (lowSum baseLo index)

/-- `page_cross` of R126. -/
def pageCross (baseLo index : Byte) : Bool := decide (lowSum baseLo index > 255)

/-- `read_ea` of R124: the dummy read uses the un-incremented high byte, page cross or not. -/
def readAddress (baseLo baseHi index : Byte) : Addr := concatBytes baseHi (lowAddress baseLo index)

/-- `write_value` of R125. -/
def writeValue (baseHi regs : Byte) : Byte := highIncremented baseHi &&& regs

/-- `write_addr` of R126: on a page cross the high byte is the written value itself. -/
def writeAddress (baseLo baseHi index regs : Byte) : Addr :=
  concatBytes (if pageCross baseLo index then writeValue baseHi regs else baseHi) (lowAddress baseLo index)

end Sys2Proof.Machine
end

