-- ==== Sys2Proof/Machine/Flags.lean ====
section
/-! DEFINITION. Every flag computation of the spec: the four flags N, V, Z, C the ALU rules produce (R25). The store unit
writes no flag (R31, R136). -/

namespace Sys2Proof.Machine

/-- `N` as bit 7 of a byte (R90, R91, R102), and of the binary difference in R110. -/
def negativeFlag (r : Byte) : Bool := bit7 r

/-- `Z` as the zero test of a byte (R90, R91, R102). -/
def zeroFlag (r : Byte) : Bool := r == 0#8

/-- `V` from the operands and a sign bit: `(a[7] XOR n) AND (m[7] XOR n)` (R90, R91, R100, R110). -/
def overflowFlag (a m : Byte) (n : Bool) : Bool := (bit7 a ^^ n) && (bit7 m ^^ n)

/-- `C` of a binary sum (R90, R91). -/
def carryFlag (sum : Nat) : Bool := decide (sum > 255)

/-- `Z` of R101: the zero test of the binary sum. -/
def binarySumZero (c : Bool) (a m : Byte) : Bool := (a.toNat + m.toNat + c.toNat) % 256 == 0

end Sys2Proof.Machine
end

