-- ==== Sys2Proof/Machine/Ops.lean ====
section
/-! DEFINITION. The shared operations: reading and writing the sparse memory, the two memory primitives of R13 with their
bus cycles, the operand fetches of R122 and R123, the store unit's one algorithm (R120 to R127), and the ALU's output.
The block raises no exception and returns from none (R150, R151), so there is no such operation here; the one way an
invocation ends without a result is `refuse` (R152). -/

namespace Sys2Proof.Machine

/-- `refuse <Reason>`: the invocation ends with no result (R13, R152). -/
def refuse (r : Refusal) : Host.Outcome State Fault Refusal := .refused r

/-- The byte listed at an address, if any: an unlisted address reads as no value (R56). log 2. -/
def Memory.read : Memory → Nat → Option Byte
  | [], _ => none
  | (b, w) :: rest, a => if a = b then some w else Memory.read rest a

/-- The mapping with one byte set; "a write to an unmapped address is always allowed and maps it" (R56). -/
def Memory.write : Memory → Nat → Byte → Memory
  | [], a, v => [(a, v)]
  | (b, w) :: rest, a, v =>
    if a < b then (a, v) :: (b, w) :: rest
    else if a = b then (a, v) :: rest
    else (b, w) :: Memory.write rest a v

/-- The listed addresses are at least `low`, strictly rise, and lie in the address space of R50. -/
def Memory.risingFrom : Nat → Memory → Bool
  | _, [] => true
  | low, (b, _) :: rest => decide (low ≤ b) && decide (b < 65536) && Memory.risingFrom (b + 1) rest

/-- The canonical form. No listed value can equal what an unlisted address reads as, since that is no value (log 2). -/
def Memory.wf (m : Memory) : Bool := Memory.risingFrom 0 m

/-- `MemRead(addr, 1)` (R13): the byte at `addr`, its Read cycle appended; refused where `mem` lists nothing (R56). -/
def memRead (addr : Addr) (s : State) : Except Refusal (Byte × State) :=
  match s.mem.read addr.toNat with
  | none => .error (.unmappedRead addr)
  | some b => .ok (b, s.addCycle ⟨addr, b, .read⟩)

/-- `MemWrite(addr, 1, v)` (R13): the byte at `addr` becomes `v`, its Write cycle appended. -/
def memWrite (addr : Addr) (v : Byte) (s : State) : State :=
  (s.setMem (s.mem.write addr.toNat v)).addCycle ⟨addr, v, .write⟩

/-- One byte of the instruction stream: a Read at PC, then `PC <- (PC + 1) mod 65536` (R29, R122, R123). -/
def fetchByte (s : State) : Except Refusal (Byte × State) :=
  match memRead s.PC s with
  | .error r => .error r
  | .ok (b, s') => .ok (b, s'.setPC (s'.PC + 1#16))

/-- A fetched base address (R122, R123). -/
structure Base where
  lo : Byte
  hi : Byte
deriving DecidableEq, Repr

/-- R122: opcode, `base_lo`, `base_hi`; three Reads, three increments of PC. The opcode byte is not used (R76). -/
def fetchAbs (s : State) : Except Refusal (Base × State) :=
  match fetchByte s with
  | .error r => .error r
  | .ok (_, s1) =>
    match fetchByte s1 with
    | .error r => .error r
    | .ok (baseLo, s2) =>
      match fetchByte s2 with
      | .error r => .error r
      | .ok (baseHi, s3) => .ok (⟨baseLo, baseHi⟩, s3)

/-- R123: opcode and `zp`, then the pointer in page zero, low byte first, its second byte at `(zp + 1) mod 256` (R53,
R54); four Reads, two increments of PC. -/
def fetchZpy (s : State) : Except Refusal (Base × State) :=
  match fetchByte s with
  | .error r => .error r
  | .ok (_, s1) =>
    match fetchByte s1 with
    | .error r => .error r
    | .ok (zp, s2) =>
      match memRead (pageZero zp) s2 with
      | .error r => .error r
      | .ok (baseLo, s3) =>
        match memRead (pageZero (zp + 1#8)) s3 with
        | .error r => .error r
        | .ok (baseHi, s4) => .ok (⟨baseLo, baseHi⟩, s4)

/-- The operand fetch of a format; a selector word has no bytes to fetch, and the store unit is never given one. -/
def fetchBase (format : Format) (s : State) : Except Refusal (Base × State) :=
  match format with
  | .zpy => fetchZpy s
  | .abs => fetchAbs s
  | .aluSel => .ok (⟨0, 0⟩, s)

/-- R124 to R127 on a fetched base: the dummy Read, the value-source combination (and the S write of TAS), and the one
Write. -/
def storeAt (index : IndexReg) (source : ValueSource) (base : Base) (s : State) : Except Refusal State :=
  match memRead (readAddress base.lo base.hi (indexValue index s)) s with
  | .error r => .error r
  | .ok (_, s1) =>
    let regs := (combineRegs source s1).1
    let s2 := (combineRegs source s1).2
    .ok (memWrite (writeAddress base.lo base.hi (indexValue index s2) regs) (writeValue base.hi regs) s2)

/-- The store unit's `execute` (R30, R120): refused on CMOS65C02 (R121), else an empty trace (R35), the operand fetch, and
the store. -/
def storeUnit (format : Format) (index : IndexReg) (source : ValueSource) (s : State) :
    Host.Outcome State Fault Refusal :=
  match s.variant with
  | .cmos65c02 => refuse .storeUnitOnCMOS
  | .nmos6502 =>
    match fetchBase format (s.setTrace []) with
    | .error r => refuse r
    | .ok (base, s1) =>
      match storeAt index source base s1 with
      | .error r => refuse r
      | .ok s2 => .next s2

/-- One ALU invocation: the result function applied to `c`, `a`, `m` of the input (R23, R24); it goes to the output and to
nothing else (R4, R26). -/
def aluCompute (f : Bool → Byte → Byte → AluResult) (s : State) : Host.Outcome State Fault Refusal :=
  .next (s.setAluOut (f s.aluIn.initialCarry s.aluIn.accumulator s.aluIn.operand))

end Sys2Proof.Machine
end

