-- ==== Sys2Proof/Machine/AluBinary.lean ====
section
/-! DEFINITION. The Decimal ALU in binary mode (40_alu_binary): R90 and R91, the same on both variants. -/

namespace Sys2Proof.Machine

/-- R90: the 8-bit add with carry and its four flags. -/
def binaryAdd (c : Bool) (a m : Byte) : AluResult :=
  let sum := a.toNat + m.toNat + c.toNat
  let r : Byte := BitVec.ofNat 8 sum
  { accumulator := r
    negative := negativeFlag r
    overflow := overflowFlag a m (bit7 r)
    zero := zeroFlag r
    carry := carryFlag sum }

/-- R91: R90 on the one's complement of the operand. -/
def binarySubtract (c : Bool) (a m : Byte) : AluResult := binaryAdd c a (not8 m)

/-- `ALU.ADD.BIN.NMOS` (R90). -/
def execAluAddBinNmos (s : State) : Host.Outcome State Fault Refusal := aluCompute binaryAdd s

/-- `ALU.SUB.BIN.NMOS` (R91). -/
def execAluSubBinNmos (s : State) : Host.Outcome State Fault Refusal := aluCompute binarySubtract s

/-- `ALU.ADD.BIN.CMOS` (R90). -/
def execAluAddBinCmos (s : State) : Host.Outcome State Fault Refusal := aluCompute binaryAdd s

/-- `ALU.SUB.BIN.CMOS` (R91). -/
def execAluSubBinCmos (s : State) : Host.Outcome State Fault Refusal := aluCompute binarySubtract s

end Sys2Proof.Machine
end

