-- ==== Sys2Proof/Config.lean ====
section
/-! DEFINITION. The open parameter of the block. The other parameter of R9, `VARIANT`, is a field of State: it is one of
two values per instance, and a statement that holds for every state holds for both (log 1). -/

namespace Sys2Proof

/-- `CMOS_SBC_DEC` (R112, D2): the result of decimal-mode Subtract on CMOS65C02, a total function of `(c, a, m)` of which
nothing is known but that it is one. It has no body: no proof can see a value of it. Marked in log 5, safe. -/
opaque Config.cmosSbcDec : Bool → Byte → Byte → AluResult

end Sys2Proof
end

