-- ==== Sys2Proof/Machine/AluDecimal.lean ====
section
/-! DEFINITION. The Decimal ALU in decimal mode (41_alu_decimal_add, 42_alu_decimal_subtract): the nibble skeleton of R100
with the flags of R101 (NMOS) and R102 (CMOS), the borrow chain of R110 (NMOS), and the open parameter of R112 (CMOS).
The reductions of a nibble modulo 16 are the spec's decision D1, without effect on valid BCD operands (log 7). -/

namespace Sys2Proof.Machine

/-- What the decimal correction of one nibble gives: the nibble reduced to 4 bits, and the carry or borrow it passes up. -/
structure Nibble where
  digit : Nat
  out   : Bool
deriving DecidableEq, Repr

/-- Decimal correction of a nibble sum: ten or more takes off ten and carries (R100); then the reduction of D1. -/
def correctSum (v : Nat) : Nibble := if v ≥ 10 then ⟨(v - 10) % 16, true⟩ else ⟨v % 16, false⟩

/-- The low nibble of a decimal Add, `l4` and `nc` (R100). -/
def addLow (c : Bool) (a m : Byte) : Nibble := correctSum (lo a + lo m + c.toNat)

/-- `h0` of R100, the uncorrected high-nibble sum. -/
def addHighSum (c : Bool) (a m : Byte) : Nat := hi a + hi m + (addLow c a m).out.toNat

/-- The high nibble of a decimal Add, `h4` and `fc` (R100). -/
def addHigh (c : Bool) (a m : Byte) : Nibble := correctSum (addHighSum c a m)

/-- `hn3` of R100. -/
def addSign (c : Bool) (a m : Byte) : Bool := bit3 (addHighSum c a m)

/-- `r` of R100. -/
def addResult (c : Bool) (a m : Byte) : Byte := concatNibbles (addHigh c a m).digit (addLow c a m).digit

/-- R101: decimal Add on NMOS6502. N is bit 3 of the uncorrected high-nibble sum, Z the zero test of the binary sum. -/
def decimalAddNmos (c : Bool) (a m : Byte) : AluResult :=
  { accumulator := addResult c a m
    negative := addSign c a m
    overflow := overflowFlag a m (addSign c a m)
    zero := binarySumZero c a m
    carry := (addHigh c a m).out }

/-- R102: decimal Add on CMOS65C02. N and Z are those of the corrected result; V is derived as on NMOS6502. -/
def decimalAddCmos (c : Bool) (a m : Byte) : AluResult :=
  { accumulator := addResult c a m
    negative := negativeFlag (addResult c a m)
    overflow := overflowFlag a m (addSign c a m)
    zero := zeroFlag (addResult c a m)
    carry := (addHigh c a m).out }

/-- Decimal correction of a nibble difference: a negative one, read as a signed integer, gets ten and borrows (R110);
then the Euclidean reduction of D1. -/
def correctDifference (v : Int) : Nibble :=
  if v < 0 then ⟨((v + 10) % 16).toNat, true⟩ else ⟨(v % 16).toNat, false⟩

/-- `b0` of R110: the borrow in. -/
def borrowIn (c : Bool) : Int := 1 - (c.toNat : Int)

/-- The low nibble of a decimal Subtract, `l4` and `b1` (R110). -/
def subLow (c : Bool) (a m : Byte) : Nibble := correctDifference ((lo a : Int) - (lo m : Int) - borrowIn c)

/-- The high nibble of a decimal Subtract, `h4` and `b2` (R110). -/
def subHigh (c : Bool) (a m : Byte) : Nibble :=
  correctDifference ((hi a : Int) - (hi m : Int) - ((subLow c a m).out.toNat : Int))

/-- `d8` of R110, the binary difference as an unsigned byte. -/
def binaryDifference (c : Bool) (a m : Byte) : Byte :=
  BitVec.ofInt 8 ((a.toNat : Int) - (m.toNat : Int) - borrowIn c)

/-- R110: decimal Subtract on NMOS6502. N, Z and V come from the binary difference (Z from the byte, C3, D18), the result
and C from the borrow chain. -/
def decimalSubtractNmos (c : Bool) (a m : Byte) : AluResult :=
  { accumulator := concatNibbles (subHigh c a m).digit (subLow c a m).digit
    negative := negativeFlag (binaryDifference c a m)
    overflow := overflowFlag a (not8 m) (negativeFlag (binaryDifference c a m))
    zero := zeroFlag (binaryDifference c a m)
    carry := !(subHigh c a m).out }

/-- `ALU.ADD.DEC.NMOS` (R101). -/
def execAluAddDecNmos (s : State) : Host.Outcome State Fault Refusal := aluCompute decimalAddNmos s

/-- `ALU.SUB.DEC.NMOS` (R110). -/
def execAluSubDecNmos (s : State) : Host.Outcome State Fault Refusal := aluCompute decimalSubtractNmos s

/-- `ALU.ADD.DEC.CMOS` (R102). -/
def execAluAddDecCmos (s : State) : Host.Outcome State Fault Refusal := aluCompute decimalAddCmos s

/-- `ALU.SUB.DEC.CMOS` (R112): the whole result is the open parameter. Free value, safe (log 5). -/
def execAluSubDecCmos (s : State) : Host.Outcome State Fault Refusal := aluCompute Config.cmosSbcDec s

end Sys2Proof.Machine
end

