-- ==== Sys2Proof/Machine/UnstableStore.lean ====
section
/-! DEFINITION. The five opcode classes of the Unstable-Store Address Unit (43_unstable_store R129 to R133): each is the
shared algorithm with the format, index register and value source of R74. The index registers of SHY and SHX and four of
the opcode bytes are the spec's general knowledge (G1, G2, C7, D16; log 8). -/

namespace Sys2Proof.Machine

/-- `SHA (zp),y` (R129). -/
def execShaZpY (s : State) : Host.Outcome State Fault Refusal := storeUnit .zpy .y .aAndX s

/-- `SHA abs,y` (R130). -/
def execShaAbsY (s : State) : Host.Outcome State Fault Refusal := storeUnit .abs .y .aAndX s

/-- `TAS abs,y` (R131). -/
def execTasAbsY (s : State) : Host.Outcome State Fault Refusal := storeUnit .abs .y .sFromAX s

/-- `SHY abs,x` (R132). -/
def execShyAbsX (s : State) : Host.Outcome State Fault Refusal := storeUnit .abs .x .y s

/-- `SHX abs,y` (R133). -/
def execShxAbsY (s : State) : Host.Outcome State Fault Refusal := storeUnit .abs .y .x s

end Sys2Proof.Machine
end

