-- ==== Sys2Proof/Machine/Dispatch.lean ====
section
/-! DEFINITION. The meaning of every instruction, one arm per constructor of Instr (R72, R74). -/

namespace Sys2Proof.Machine

def exec (i : Instr) (s : State) : Host.Outcome State Fault Refusal :=
  match i with
  | .aluAddBinNmos => Sys2Proof.Machine.execAluAddBinNmos s
  | .aluAddDecNmos => Sys2Proof.Machine.execAluAddDecNmos s
  | .aluSubBinNmos => Sys2Proof.Machine.execAluSubBinNmos s
  | .aluSubDecNmos => Sys2Proof.Machine.execAluSubDecNmos s
  | .aluAddBinCmos => Sys2Proof.Machine.execAluAddBinCmos s
  | .aluAddDecCmos => Sys2Proof.Machine.execAluAddDecCmos s
  | .aluSubBinCmos => Sys2Proof.Machine.execAluSubBinCmos s
  | .aluSubDecCmos => Sys2Proof.Machine.execAluSubDecCmos s
  | .shaZpY => Sys2Proof.Machine.execShaZpY s
  | .shaAbsY => Sys2Proof.Machine.execShaAbsY s
  | .tasAbsY => Sys2Proof.Machine.execTasAbsY s
  | .shyAbsX => Sys2Proof.Machine.execShyAbsX s
  | .shxAbsY => Sys2Proof.Machine.execShxAbsY s

end Sys2Proof.Machine
end

