-- ==== Sys2Proof/Machine/Invoke.lean ====
section
/-! DEFINITION. The two ends of an invocation (R5, R160): which instruction it selects and what the block is handed
(`select`), what becomes of the result (`retire`), and the hand-over of one encoded instruction (`placeWord`). -/

namespace Sys2Proof.Machine

/-- The ALU input of the binding of R26: carry C, accumulator A, the fetched operand byte, decimal mode D. -/
def boundInput (operand : Byte) (s : State) : AluInput := ⟨s.C, s.A, operand, s.D⟩

/-- The instruction an invocation selects, decoded, and the state `exec` is given. The ALU's selector is formed from the
three symbolic values (R70, R72); the store unit's class from its code (R77), with R121 tested first (R152, log 9), or
from the opcode byte at PC (R76). Looking at that byte is the dispatcher's act and no bus cycle: the unit fetches it. -/
def select (inv : Invocation) (s : State) : Except Refusal (Instr × State) :=
  match inv with
  | .compute variant operation input =>
    .ok (decodeSel (selWord variant operation input.decimalMode), s.setAluIn input)
  | .bound operation operand =>
    .ok (decodeSel (selWord s.variant operation s.D), s.setAluIn (boundInput operand s))
  | .execute code =>
    match s.variant with
    | .cmos65c02 => .error .storeUnitOnCMOS
    | .nmos6502 =>
      match decodeClass code with
      | .ok i => .ok (i, s)
      | .error _ => .error (.unknownOpcodeClass code)
  | .dispatch =>
    match s.mem.read s.PC.toNat with
    | none => .error (.unmappedRead s.PC)
    | some opcode =>
      match decodeOpcode opcode with
      | .ok i => .ok (i, s)
      | .error _ => .error (.opcodeOutsideBlock opcode)

/-- What the dispatcher does with the outcome: only the binding of R26 writes the result to the registers. -/
def retire (inv : Invocation) (s : State) : State :=
  match inv with
  | .compute _ _ _ => s
  | .bound _ _ => s.bindResult s.aluOut
  | .execute _ => s
  | .dispatch => s

/-- One invocation from its selection to its end. -/
def invoke (inv : Invocation) (s : State) : Host.Outcome State Fault Refusal :=
  match select inv s with
  | .error r => refuse r
  | .ok (i, s1) =>
    match exec i s1 with
    | .next s2 => .next (retire inv s2)
    | .fault f => .fault f
    | .refused r => .refused r

/-- Bytes written from an address on, one address up for each, wrapping as PC does (R29). No bus cycles: the caller's
own writes (R160). -/
def placeBytes : Addr → List Byte → State → State
  | _, [], s => s
  | addr, b :: rest, s => placeBytes (addr + 1#16) rest (s.setMem (s.mem.write addr.toNat b))

/-- The caller's duty of R173 and R160: `mem` maps every address the invocation reads. Each of at most `fuel` addresses
that the instruction reads and `mem` does not list is mapped, to 0. log 10. -/
def mapReads : Nat → Instr → State → State
  | 0, _, s => s
  | fuel + 1, i, s =>
    match exec i s with
    | .refused (.unmappedRead addr) => mapReads fuel i (s.setMem (s.mem.write addr.toNat 0#8))
    | .refused _ => s
    | .fault _ => s
    | .next _ => s

/-- An ALU invocation with the given selector word, on the data `c`, `a`, `m` the ALU input holds. -/
def selectorInvocation (sel : BitVec 3) (input : AluInput) : Invocation :=
  .compute (variantOfBit (sel.getLsbD 2)) (operationOfBit (sel.getLsbD 1))
    ⟨input.initialCarry, input.accumulator, input.operand, sel.getLsbD 0⟩

/-- The hand-over of one encoded instruction, so that the next step runs it: a selector word is invoked on the ALU; bytes
are placed at PC, an invocation that decodes at PC is put first, and the addresses the instruction reads are mapped. -/
def placeWord (e : Encoding) (s : State) : State :=
  match e with
  | .selector sel => s.setProgram (selectorInvocation sel s.aluIn :: s.program)
  | .stream bytes =>
    let placed := (placeBytes s.PC bytes s).setProgram (.dispatch :: s.program)
    match decodeStream bytes with
    | .ok d => mapReads 3 d.coded.instr placed
    | .error _ => placed

end Sys2Proof.Machine
end

