-- ==== Sys2Proof/Machine/Step.lean ====
section
/-! DEFINITION. One step is one invocation: the first of the caller's list (R182, R5), each given the state the previous
one returned. The machine does not fetch at a program counter by itself; see log 4 for how a program comes to run. -/

namespace Sys2Proof.Machine

/-- Performs the next invocation of the list; when none is left the run has ended (R182, log 4). -/
def step (s : State) : Host.Outcome State Fault Refusal :=
  match s.program with
  | [] => .fault .endOfRun
  | inv :: rest => invoke inv (s.setProgram rest)

/-- `s` with the instruction whose bits are `w` (as opcode_table.json numbers them) handed over as the next one to run.
log 10. -/
def State.withFetchWord (s : State) (nbits w : Nat) : State := placeWord (tableEncoding nbits w) s

end Sys2Proof.Machine
end

