-- ==== Sys2Proof/WellFormed.lean ====
section
/-! DEFINITION. Which terms of Syntax stand for something the spec describes. An `Instr` and an `AluInput` always do
(R23: every combination is legal; R72: the selector has no illegal value); a `Coded` does when it has the operand bytes
its format says (R73), and an `Invocation` when its class code names an opcode class (R77). -/

namespace Sys2Proof

/-- An encoded instruction has exactly the operand bytes of its format (R73). -/
def Coded.wellFormed (c : Coded) : Bool := c.operands.length == c.instr.format.operandBytes

/-- Class codes 101, 110 and 111 name no opcode class (R77). -/
def Invocation.wellFormed : Invocation → Bool
  | .compute _ _ _ => true
  | .bound _ _ => true
  | .execute code => decide (code.toNat ≤ 4)
  | .dispatch => true

end Sys2Proof
end

