-- ==== Sys2Proof/Safety.lean ====
section
/-! DEFINITION. What the statements speak of: what a store-unit invocation needs of its caller (R173), the invariant of
the machine, and a run that reaches the end of its program. -/

namespace Sys2Proof.Machine

/-- A total `Mem`: every address is mapped, as on the hardware (R33). -/
def TotalMem (s : State) : Prop := ∀ a : Addr, ∃ b, s.mem.read a.toNat = some b

/-- A complete trace of a store-unit invocation, and the byte its Write left in memory: four or five Reads and then one
Write (R34, R120, R128), whose value `mem` holds at its address (R13, R51). -/
def CompleteTrace (trace : List BusCycle) (mem : Memory) : Prop :=
  ∃ (reads : List BusCycle) (addr : Addr) (v : Byte),
    trace = reads ++ [⟨addr, v, .write⟩] ∧ (reads.length = 4 ∨ reads.length = 5) ∧
      (∀ c ∈ reads, c.direction = .read) ∧ mem.read addr.toNat = some v

/-- The invariant: memory keeps its canonical form, and the trace is empty or that of a complete invocation. -/
def State.Inv (s : State) : Prop := s.mem.wf = true ∧ (s.trace = [] ∨ CompleteTrace s.trace s.mem)

/-- An invocation the caller states in full and well-formed: one of the two forms of the ALU, or a class code that names
an opcode class (R77). A `dispatch` is not among them: whether it runs depends on the byte at PC. -/
def statedInvocation (inv : Invocation) : Bool := inv.wellFormed && inv != .dispatch

/-- A run of the whole program of `s` that ends in `t` with nothing left to do (R182). -/
def RunsToEnd (s t : State) : Prop := Host.Core.run Sys2Proof.core s.program.length s = .next t ∧ t.program = []

end Sys2Proof.Machine
end

