-- ==== Sys2Proof/Certificates/Slice0/Obligations.lean ====
section
/-! DEFINITION. The statements for the provers. They are written in the spec's own arithmetic (00_scope R10 to R12) on the
numbers of the operands, not with the model's functions, except where a statement is about such a function. -/

namespace Sys2Proof.Spec

/-- `v[i]` of R11: bit `i` of a non-negative integer. -/
def bit (v i : Nat) : Bool := v / 2 ^ i % 2 == 1

/-- `ValidBCD(b)` of R14, on the number. -/
def ValidBCD (b : Nat) : Prop := b % 16 ≤ 9 ∧ b / 16 ≤ 9

/-- The decimal value of a valid BCD byte (R14). -/
def decimalValue (b : Nat) : Nat := 10 * (b / 16) + b % 16

/-- The ALU instructions (R72). -/
def aluInstrs : List Instr :=
  [.aluAddBinNmos, .aluAddDecNmos, .aluSubBinNmos, .aluSubDecNmos,
   .aluAddBinCmos, .aluAddDecCmos, .aluSubBinCmos, .aluSubDecCmos]

/-- The opcode classes (R74) with their format, index register and value source. -/
def storeTable : List (Instr × Format × IndexReg × ValueSource) :=
  [(.shaZpY, .zpy, .y, .aAndX), (.shaAbsY, .abs, .y, .aAndX), (.tasAbsY, .abs, .y, .sFromAX),
   (.shyAbsX, .abs, .x, .y), (.shxAbsY, .abs, .y, .x)]

/-- The opcode classes (R74). -/
def storeInstrs : List Instr := storeTable.map (·.1)

end Sys2Proof.Spec

open Sys2Proof Sys2Proof.Machine Sys2Proof.Spec

/-! ### Encodings and the step -/

/-- R72, R73, R74: decoding the words of an encoded well-formed instruction gives it back with every operand byte, also
with more bytes after it in the stream, and a stream of bytes decodes to an instruction in no other way. The numbers of
the encodings are the spec's own (D3, D15; log 8). -/
def Obligations.DecodeAndEncodeAgree : Prop :=
  (∀ c : Coded, c.wellFormed = true → decode (encode c) = .ok ⟨c, []⟩) ∧
  (∀ (bytes rest : List Byte) (c : Coded),
    decode (.stream bytes) = .ok ⟨c, rest⟩ ↔
      c.wellFormed = true ∧ c.instr.isStore = true ∧
        ∃ coded, encode c = .stream coded ∧ bytes = coded ++ rest)

/-- R70, R71, R72, R74: every word of the tables, written out, names its instruction, each selector word is that of its
variant, operation and mode, and each class has its code. The numbers of the selector, of the class codes and of the
direction are the spec's own (D3), four of the opcode bytes its general knowledge (G1, D15; log 8). -/
def Obligations.WordsOfTheTablesDecode : Prop :=
  [0b000#3, 0b001#3, 0b010#3, 0b011#3, 0b100#3, 0b101#3, 0b110#3, 0b111#3].map decodeSel = aluInstrs ∧
  [selWord .nmos6502 .add false, selWord .nmos6502 .add true, selWord .nmos6502 .subtract false,
    selWord .nmos6502 .subtract true, selWord .cmos65c02 .add false, selWord .cmos65c02 .add true,
    selWord .cmos65c02 .subtract false, selWord .cmos65c02 .subtract true] =
    [0b000#3, 0b001#3, 0b010#3, 0b011#3, 0b100#3, 0b101#3, 0b110#3, 0b111#3] ∧
  (∀ v : ProcessorVariant, variantOfBit (variantBit v) = v) ∧ (∀ o : Operation, operationOfBit (operationBit o) = o) ∧
  directionBit .read = true ∧ directionBit .write = false ∧
  [0b000#3, 0b001#3, 0b010#3, 0b011#3, 0b100#3].map decodeClass = storeInstrs.map .ok ∧
  storeInstrs.map encodeClass = [0b000#3, 0b001#3, 0b010#3, 0b011#3, 0b100#3].map some ∧
  decodeStream [0b10010011#8, 0x40#8] = .ok ⟨⟨.shaZpY, [0x40#8]⟩, []⟩ ∧
  decodeStream [0b10011111#8, 0xC0#8, 0x30#8] = .ok ⟨⟨.shaAbsY, [0xC0#8, 0x30#8]⟩, []⟩ ∧
  decodeStream [0b10011011#8, 0x10#8, 0x20#8] = .ok ⟨⟨.tasAbsY, [0x10#8, 0x20#8]⟩, []⟩ ∧
  decodeStream [0b10011100#8, 0xFE#8, 0x44#8] = .ok ⟨⟨.shyAbsX, [0xFE#8, 0x44#8]⟩, []⟩ ∧
  decodeStream [0b10011110#8, 0x34#8, 0x7F#8] = .ok ⟨⟨.shxAbsY, [0x34#8, 0x7F#8]⟩, []⟩

/-- R26, R70, R76, R77: a step takes the first invocation of the list and runs the instruction that invocation selects, on
the state without that invocation. That a run is a list is the spec's decision D14 (R182); that the list stands in State
and a step takes its first, and the form `dispatch`, are the model's choice (log 4), and so is that the ALU's input stands
in State as `aluIn` (log 3). The numbers of the selector are the spec's own (D3, log 8). -/
def Obligations.StepRunsTheSelectedInstruction : Prop :=
  ∀ (s : State) (rest : List Invocation),
    (∀ v o input, s.program = .compute v o input :: rest →
      step s = exec (decodeSel (selWord v o input.decimalMode)) { s with program := rest, aluIn := input }) ∧
    (∀ o operand t, s.program = .bound o operand :: rest →
      exec (decodeSel (selWord s.variant o s.D)) { s with program := rest, aluIn := ⟨s.C, s.A, operand, s.D⟩ } = .next t →
      step s = .next { t with A := t.aluOut.accumulator, N := t.aluOut.negative, V := t.aluOut.overflow,
                              Z := t.aluOut.zero, C := t.aluOut.carry }) ∧
    (∀ code i, s.program = .execute code :: rest → s.variant = .nmos6502 → decodeClass code = .ok i →
      step s = exec i { s with program := rest }) ∧
    (∀ opcode i, s.program = .dispatch :: rest → s.mem.read s.PC.toNat = some opcode → decodeOpcode opcode = .ok i →
      step s = exec i { s with program := rest })

/-- R77: class codes 101, 110, 111 are refused by name, the spec's decision D9 (log 8), and the other five are not. R121 is
tested first (log 9), so the instance is an NMOS6502. -/
def Obligations.UnknownClassCodesRefused : Prop :=
  ∀ (s : State) (code : BitVec 3) (rest : List Invocation), s.variant = .nmos6502 → s.program = .execute code :: rest →
    (step s = .refused (.unknownOpcodeClass code) ↔ 5 ≤ code.toNat)

/-- R77, R7, R56, U6: the model's choices (log 9) for a `dispatch` on an opcode byte other than the five of R74, and on a
byte that memory does not map. -/
def Obligations.OpcodeBytesOutsideTheBlockRefused : Prop :=
  ∀ (s : State) (rest : List Invocation), s.program = .dispatch :: rest →
    (∀ opcode : Byte, s.mem.read s.PC.toNat = some opcode →
      (step s = .refused (.opcodeOutsideBlock opcode) ↔
        opcode ∉ [0x93#8, 0x9F#8, 0x9B#8, 0x9C#8, 0x9E#8])) ∧
    (s.mem.read s.PC.toNat = none → step s = .refused (.unmappedRead s.PC))

/-! ### Decimal ALU, binary mode -/

/-- R90: binary Add, on either variant: the result byte, the four flags, and nothing else changed. -/
def Obligations.BinaryAddResult : Prop :=
  ∀ (i : Instr) (s : State), i = .aluAddBinNmos ∨ i = .aluAddBinCmos →
    let c := s.aluIn.initialCarry.toNat
    let a := s.aluIn.accumulator.toNat
    let m := s.aluIn.operand.toNat
    let sum := a + m + c
    let r := sum % 256
    exec i s = .next { s with aluOut :=
      { accumulator := BitVec.ofNat 8 r
        negative := bit r 7
        overflow := (bit a 7 ^^ bit r 7) && (bit m 7 ^^ bit r 7)
        zero := decide (r = 0)
        carry := decide (sum > 255) } }

/-- R91: binary Subtract, on either variant: the result byte, the four flags (overflow from the complemented operand), and
nothing else changed. -/
def Obligations.BinarySubtractResult : Prop :=
  ∀ (i : Instr) (s : State), i = .aluSubBinNmos ∨ i = .aluSubBinCmos →
    let c := s.aluIn.initialCarry.toNat
    let a := s.aluIn.accumulator.toNat
    let m' := 255 - s.aluIn.operand.toNat
    let sum := a + m' + c
    let r := sum % 256
    exec i s = .next { s with aluOut :=
      { accumulator := BitVec.ofNat 8 r
        negative := bit r 7
        overflow := (bit a 7 ^^ bit r 7) && (bit m' 7 ^^ bit r 7)
        zero := decide (r = 0)
        carry := decide (sum > 255) } }

/-- R90, corner cases: V of a binary Add is 1 exactly when the signed sum lies outside [-128, 127]. -/
def Obligations.BinaryAddOverflowIsSignedOverflow : Prop :=
  ∀ (i : Instr) (s : State), i = .aluAddBinNmos ∨ i = .aluAddBinCmos →
    ∃ t, exec i s = .next t ∧
      (t.aluOut.overflow = true ↔
        ¬ (-128 ≤ s.aluIn.accumulator.toInt + s.aluIn.operand.toInt + (s.aluIn.initialCarry.toNat : Int) ∧
           s.aluIn.accumulator.toInt + s.aluIn.operand.toInt + (s.aluIn.initialCarry.toNat : Int) ≤ 127))

/-- R91, equivalent arithmetic form: the byte is the difference modulo 256, and C = 1 means no borrow. -/
def Obligations.BinarySubtractIsDifference : Prop :=
  ∀ (i : Instr) (s : State), i = .aluSubBinNmos ∨ i = .aluSubBinCmos →
    let diff : Int := (s.aluIn.accumulator.toNat : Int) - s.aluIn.operand.toNat - (1 - (s.aluIn.initialCarry.toNat : Int))
    ∃ t, exec i s = .next t ∧ (t.aluOut.accumulator.toNat : Int) = diff % 256 ∧ (t.aluOut.carry = true ↔ 0 ≤ diff)

/-- R92: the three laws of binary mode. That the third, the identity pass, is a law of Add with carry 0 is the spec's own
decision (D19, C5). -/
def Obligations.BinaryModeLaws : Prop :=
  (∀ (i : Instr) (s : State), i = .aluAddBinNmos ∨ i = .aluAddBinCmos →
    let sum := s.aluIn.accumulator.toNat + s.aluIn.operand.toNat + s.aluIn.initialCarry.toNat
    ∃ t, exec i s = .next t ∧ t.aluOut.accumulator.toNat = sum % 256 ∧ (t.aluOut.carry = true ↔ sum > 255)) ∧
  (∀ (add sub : Instr) (s : State),
    (add = .aluAddBinNmos ∧ sub = .aluSubBinNmos) ∨ (add = .aluAddBinCmos ∧ sub = .aluSubBinCmos) →
    ∃ t t', exec sub s = .next t ∧
      exec add { s with aluIn := { s.aluIn with operand := s.aluIn.operand ^^^ 0xFF#8 } } = .next t' ∧
      t.aluOut = t'.aluOut) ∧
  (∀ (add sub : Instr) (s : State) (d : Bool),
    (add = .aluAddBinNmos ∧ sub = .aluSubBinNmos) ∨ (add = .aluAddBinCmos ∧ sub = .aluSubBinCmos) →
    let r := s.aluOut.accumulator
    let result (carry : Bool) : AluResult := ⟨r, bit r.toNat 7, false, decide (r = 0#8), carry⟩
    (∃ t, exec add { s with aluIn := ⟨false, r, 0#8, d⟩ } = .next t ∧ t.aluOut = result false) ∧
    (∃ t, exec sub { s with aluIn := ⟨true, r, 0#8, d⟩ } = .next t ∧ t.aluOut = result true) ∧
    (∃ t, exec sub { s with aluIn := ⟨false, r, 0#8, d⟩ } = .next t ∧ t.aluOut.accumulator = r - 1#8))

/-! ### Decimal ALU, decimal mode -/

/-- R100, R101: decimal Add on NMOS6502: the result byte, the four flags, and nothing else changed. For operands that are
not valid BCD the result byte rests on the spec's own decision D1 (log 7); the four flags do not. -/
def Obligations.DecimalAddNmosResult : Prop :=
  ∀ s : State,
    let c := s.aluIn.initialCarry.toNat
    let a := s.aluIn.accumulator.toNat
    let m := s.aluIn.operand.toNat
    let l := a % 16 + m % 16 + c
    let l4 := (if l ≥ 10 then l - 10 else l) % 16
    let nc := if l ≥ 10 then 1 else 0
    let h0 := a / 16 + m / 16 + nc
    let hn3 := bit h0 3
    let h4 := (if h0 > 9 then h0 - 10 else h0) % 16
    exec .aluAddDecNmos s = .next { s with aluOut :=
      { accumulator := BitVec.ofNat 8 (16 * h4 + l4)
        negative := hn3
        overflow := (bit a 7 ^^ hn3) && (bit m 7 ^^ hn3)
        zero := decide ((a + m + c) % 256 = 0)
        carry := decide (h0 > 9) } }

/-- R100, R102: decimal Add on CMOS65C02: the result byte, the four flags, and nothing else changed. For operands that are
not valid BCD the result byte, and N and Z which are computed from it, rest on the spec's own decision D1 (log 7). -/
def Obligations.DecimalAddCmosResult : Prop :=
  ∀ s : State,
    let c := s.aluIn.initialCarry.toNat
    let a := s.aluIn.accumulator.toNat
    let m := s.aluIn.operand.toNat
    let l := a % 16 + m % 16 + c
    let l4 := (if l ≥ 10 then l - 10 else l) % 16
    let nc := if l ≥ 10 then 1 else 0
    let h0 := a / 16 + m / 16 + nc
    let hn3 := bit h0 3
    let h4 := (if h0 > 9 then h0 - 10 else h0) % 16
    let r := 16 * h4 + l4
    exec .aluAddDecCmos s = .next { s with aluOut :=
      { accumulator := BitVec.ofNat 8 r
        negative := bit r 7
        overflow := (bit a 7 ^^ hn3) && (bit m 7 ^^ hn3)
        zero := decide (r = 0)
        carry := decide (h0 > 9) } }

/-- R103 item 1: on valid BCD operands decimal Add is decimal addition, on both variants. -/
def Obligations.DecimalAddIsBcdAddition : Prop :=
  ∀ (i : Instr) (s : State), i = .aluAddDecNmos ∨ i = .aluAddDecCmos →
    ValidBCD s.aluIn.accumulator.toNat → ValidBCD s.aluIn.operand.toNat →
    let t := decimalValue s.aluIn.accumulator.toNat + decimalValue s.aluIn.operand.toNat + s.aluIn.initialCarry.toNat
    ∃ s', exec i s = .next s' ∧ ValidBCD s'.aluOut.accumulator.toNat ∧
      decimalValue s'.aluOut.accumulator.toNat = t % 100 ∧ (s'.aluOut.carry = true ↔ t > 99)

/-- R103 items 2 and 3: the two variants agree on the result byte, V and C for every input, and for some valid BCD inputs
Z and N differ; on NMOS6502 Z can be clear on a zero result and set on a result that is not zero. -/
def Obligations.DecimalAddVariantsCompared : Prop :=
  (∀ s : State, ∃ t t', exec .aluAddDecNmos s = .next t ∧ exec .aluAddDecCmos s = .next t' ∧
    t.aluOut.accumulator = t'.aluOut.accumulator ∧ t.aluOut.overflow = t'.aluOut.overflow ∧
    t.aluOut.carry = t'.aluOut.carry) ∧
  (∃ s t t', ValidBCD s.aluIn.accumulator.toNat ∧ ValidBCD s.aluIn.operand.toNat ∧
    exec .aluAddDecNmos s = .next t ∧ exec .aluAddDecCmos s = .next t' ∧
    t.aluOut.zero ≠ t'.aluOut.zero ∧ t.aluOut.negative ≠ t'.aluOut.negative) ∧
  (∃ s t, exec .aluAddDecNmos s = .next t ∧ t.aluOut.accumulator = 0#8 ∧ t.aluOut.zero = false) ∧
  (∃ s t, exec .aluAddDecNmos s = .next t ∧ t.aluOut.accumulator ≠ 0#8 ∧ t.aluOut.zero = true)

/-- R110: decimal Subtract on NMOS6502: the result byte, the four flags, and nothing else changed. For operands that are
not valid BCD the result byte rests on the spec's own decision D1 (log 7), and Z at 0x00 - 0xFF with borrow on D18 (C3). -/
def Obligations.DecimalSubtractNmosResult : Prop :=
  ∀ s : State,
    let c : Int := s.aluIn.initialCarry.toNat
    let a := s.aluIn.accumulator.toNat
    let m := s.aluIn.operand.toNat
    let d8 : Int := ((a : Int) - m - (1 - c)) % 256
    let n := decide (d8 ≥ 0x80)
    let l : Int := ((a % 16 : Nat) : Int) - (m % 16 : Nat) - (1 - c)
    let b1 : Int := if l < 0 then 1 else 0
    let l4 : Int := (if l < 0 then l + 10 else l) % 16
    let h : Int := ((a / 16 : Nat) : Int) - (m / 16 : Nat) - b1
    let h4 : Int := (if h < 0 then h + 10 else h) % 16
    exec .aluSubDecNmos s = .next { s with aluOut :=
      { accumulator := BitVec.ofInt 8 (16 * h4 + l4)
        negative := n
        overflow := (bit a 7 ^^ n) && (bit (255 - m) 7 ^^ n)
        zero := decide (d8 = 0)
        carry := decide (0 ≤ h) } }

/-- R110, flags written: all four flags of decimal Subtract on NMOS6502 are those of binary Subtract. That this holds of Z
at 0x00 - 0xFF with borrow too is the spec's own decision D18 (C3; log 8). -/
def Obligations.DecimalSubtractNmosFlagsAreBinary : Prop :=
  ∀ s : State, ∃ t t', exec .aluSubDecNmos s = .next t ∧ exec .aluSubBinNmos s = .next t' ∧
    t.aluOut.negative = t'.aluOut.negative ∧ t.aluOut.overflow = t'.aluOut.overflow ∧
    t.aluOut.zero = t'.aluOut.zero ∧ t.aluOut.carry = t'.aluOut.carry

/-- R111: on valid BCD operands decimal Subtract on NMOS6502 is decimal subtraction. -/
def Obligations.DecimalSubtractIsBcdSubtraction : Prop :=
  ∀ s : State, ValidBCD s.aluIn.accumulator.toNat → ValidBCD s.aluIn.operand.toNat →
    let t : Int := (decimalValue s.aluIn.accumulator.toNat : Int) - decimalValue s.aluIn.operand.toNat -
      (1 - (s.aluIn.initialCarry.toNat : Int))
    ∃ s', exec .aluSubDecNmos s = .next s' ∧ ValidBCD s'.aluOut.accumulator.toNat ∧
      (decimalValue s'.aluOut.accumulator.toNat : Int) = t % 100 ∧ (s'.aluOut.carry = true ↔ 0 ≤ t)

/-- R112: decimal Subtract on CMOS65C02 completes, and its whole result is the open parameter (D2, log 5), whatever that
is; nothing else is changed. -/
def Obligations.DecimalSubtractCmosIsTheParameter : Prop :=
  ∀ s : State, exec .aluSubDecCmos s =
    .next { s with aluOut := Config.cmosSbcDec s.aluIn.initialCarry s.aluIn.accumulator s.aluIn.operand }

/-- R24, R4: an ALU invocation depends on `c`, `a`, `m` alone, always gives a result, and touches nothing but the output
of the ALU. -/
def Obligations.AluIsPureAndTotal : Prop :=
  ∀ i ∈ aluInstrs, ∀ s s' : State, s.aluIn.initialCarry = s'.aluIn.initialCarry →
    s.aluIn.accumulator = s'.aluIn.accumulator → s.aluIn.operand = s'.aluIn.operand →
    ∃ r : AluResult, exec i s = .next { s with aluOut := r } ∧ exec i s' = .next { s' with aluOut := r }

/-- R25: N is bit 7 of the result and Z its zero test in binary mode and in decimal Add on CMOS65C02; in decimal Add and
Subtract on NMOS6502 each of the two relations fails for some input. -/
def Obligations.WhereNegativeAndZeroDescribeTheResult : Prop :=
  (∀ i ∈ [Instr.aluAddBinNmos, .aluAddBinCmos, .aluSubBinNmos, .aluSubBinCmos, .aluAddDecCmos], ∀ s : State,
    ∃ t, exec i s = .next t ∧ t.aluOut.negative = bit t.aluOut.accumulator.toNat 7 ∧
      (t.aluOut.zero = true ↔ t.aluOut.accumulator = 0#8)) ∧
  (∀ i ∈ [Instr.aluAddDecNmos, .aluSubDecNmos],
    (∃ s t, exec i s = .next t ∧ t.aluOut.negative ≠ bit t.aluOut.accumulator.toNat 7) ∧
    (∃ s t, exec i s = .next t ∧ ¬ (t.aluOut.zero = true ↔ t.aluOut.accumulator = 0#8)))

/-- R26, R24: an ADC or SBC with a fetched operand byte: the result of `compute` on C, A and the operand goes to A, N, V,
Z, C; D, I, X, Y, S, PC, memory, the strap and the trace are untouched. That the ports keep the input and the result
(log 3) and that the invocation is one of a list in State and is taken off it (log 4; R182, D14) is the model's choice. -/
def Obligations.BindingOfAdcAndSbc : Prop :=
  ∀ (s : State) (o : Operation) (operand : Byte) (rest : List Invocation), s.program = .bound o operand :: rest →
    ∃ r : AluResult,
      (∀ s' : State, s'.aluIn = ⟨s.C, s.A, operand, s.D⟩ →
        exec (decodeSel (selWord s.variant o s.D)) s' = .next { s' with aluOut := r }) ∧
      step s = .next { s with A := r.accumulator, N := r.negative, V := r.overflow, Z := r.zero, C := r.carry,
                              aluIn := ⟨s.C, s.A, operand, s.D⟩, aluOut := r, program := rest }

/-! ### Unstable-Store Address Unit -/

/-- R129: `SHA (zp),y`: four fetch Reads with the pointer in page zero, the dummy Read, and the Write; PC, the trace and one
byte of memory change and nothing else. Low byte first (D17), the pointer's wrap (D6) and PC's wrap (D5) are the spec's own
decisions (log 8). -/
def Obligations.ShaZpYResult : Prop :=
  ∀ (s : State) (opcode zp baseLo baseHi dummy : Byte), s.variant = .nmos6502 →
    s.mem.read s.PC.toNat = some opcode → s.mem.read (s.PC + 1#16).toNat = some zp →
    s.mem.read zp.toNat = some baseLo → s.mem.read ((zp.toNat + 1) % 256) = some baseHi →
    let sumLo := baseLo.toNat + s.Y.toNat
    let h1 := (baseHi.toNat + 1) % 256
    s.mem.read (sumLo % 256 + 256 * baseHi.toNat) = some dummy →
    let value := h1 &&& s.A.toNat &&& s.X.toNat
    let addr := sumLo % 256 + 256 * (if sumLo > 255 then value else baseHi.toNat)
    exec .shaZpY s = .next { s with
      PC := s.PC + 2#16
      mem := s.mem.write addr (BitVec.ofNat 8 value)
      trace := [⟨s.PC, opcode, .read⟩, ⟨s.PC + 1#16, zp, .read⟩, ⟨BitVec.ofNat 16 zp.toNat, baseLo, .read⟩,
                ⟨BitVec.ofNat 16 ((zp.toNat + 1) % 256), baseHi, .read⟩,
                ⟨BitVec.ofNat 16 (sumLo % 256 + 256 * baseHi.toNat), dummy, .read⟩,
                ⟨BitVec.ofNat 16 addr, BitVec.ofNat 8 value, .write⟩] }

/-- R130: `SHA abs,y`: three fetch Reads, the dummy Read, and the Write; PC, the trace and one byte of memory change and
nothing else. Low byte first (D17) and PC's wrap (D5) are the spec's own decisions (log 8). -/
def Obligations.ShaAbsYResult : Prop :=
  ∀ (s : State) (opcode baseLo baseHi dummy : Byte), s.variant = .nmos6502 →
    s.mem.read s.PC.toNat = some opcode → s.mem.read (s.PC + 1#16).toNat = some baseLo →
    s.mem.read (s.PC + 2#16).toNat = some baseHi →
    let sumLo := baseLo.toNat + s.Y.toNat
    let h1 := (baseHi.toNat + 1) % 256
    s.mem.read (sumLo % 256 + 256 * baseHi.toNat) = some dummy →
    let value := h1 &&& s.A.toNat &&& s.X.toNat
    let addr := sumLo % 256 + 256 * (if sumLo > 255 then value else baseHi.toNat)
    exec .shaAbsY s = .next { s with
      PC := s.PC + 3#16
      mem := s.mem.write addr (BitVec.ofNat 8 value)
      trace := [⟨s.PC, opcode, .read⟩, ⟨s.PC + 1#16, baseLo, .read⟩, ⟨s.PC + 2#16, baseHi, .read⟩,
                ⟨BitVec.ofNat 16 (sumLo % 256 + 256 * baseHi.toNat), dummy, .read⟩,
                ⟨BitVec.ofNat 16 addr, BitVec.ofNat 8 value, .write⟩] }

/-- R131: `TAS abs,y`: three fetch Reads, the dummy Read, S := A AND X on every execution, and the Write of S AND
(base_hi + 1); nothing else changes. Low byte first (D17) and PC's wrap (D5) are the spec's own decisions (log 8). -/
def Obligations.TasAbsYResult : Prop :=
  ∀ (s : State) (opcode baseLo baseHi dummy : Byte), s.variant = .nmos6502 →
    s.mem.read s.PC.toNat = some opcode → s.mem.read (s.PC + 1#16).toNat = some baseLo →
    s.mem.read (s.PC + 2#16).toNat = some baseHi →
    let sumLo := baseLo.toNat + s.Y.toNat
    let h1 := (baseHi.toNat + 1) % 256
    s.mem.read (sumLo % 256 + 256 * baseHi.toNat) = some dummy →
    let newS := s.A.toNat &&& s.X.toNat
    let value := h1 &&& newS
    let addr := sumLo % 256 + 256 * (if sumLo > 255 then value else baseHi.toNat)
    exec .tasAbsY s = .next { s with
      PC := s.PC + 3#16
      S := BitVec.ofNat 8 newS
      mem := s.mem.write addr (BitVec.ofNat 8 value)
      trace := [⟨s.PC, opcode, .read⟩, ⟨s.PC + 1#16, baseLo, .read⟩, ⟨s.PC + 2#16, baseHi, .read⟩,
                ⟨BitVec.ofNat 16 (sumLo % 256 + 256 * baseHi.toNat), dummy, .read⟩,
                ⟨BitVec.ofNat 16 addr, BitVec.ofNat 8 value, .write⟩] }

/-- R132: `SHY abs,x`: value Y; three fetch Reads, the dummy Read, and the Write; PC, the trace and one byte of memory change
and nothing else. The index X is the spec's general knowledge (G2, D16), low byte first (D17) and PC's wrap (D5) its own
decisions (log 8). -/
def Obligations.ShyAbsXResult : Prop :=
  ∀ (s : State) (opcode baseLo baseHi dummy : Byte), s.variant = .nmos6502 →
    s.mem.read s.PC.toNat = some opcode → s.mem.read (s.PC + 1#16).toNat = some baseLo →
    s.mem.read (s.PC + 2#16).toNat = some baseHi →
    let sumLo := baseLo.toNat + s.X.toNat
    let h1 := (baseHi.toNat + 1) % 256
    s.mem.read (sumLo % 256 + 256 * baseHi.toNat) = some dummy →
    let value := h1 &&& s.Y.toNat
    let addr := sumLo % 256 + 256 * (if sumLo > 255 then value else baseHi.toNat)
    exec .shyAbsX s = .next { s with
      PC := s.PC + 3#16
      mem := s.mem.write addr (BitVec.ofNat 8 value)
      trace := [⟨s.PC, opcode, .read⟩, ⟨s.PC + 1#16, baseLo, .read⟩, ⟨s.PC + 2#16, baseHi, .read⟩,
                ⟨BitVec.ofNat 16 (sumLo % 256 + 256 * baseHi.toNat), dummy, .read⟩,
                ⟨BitVec.ofNat 16 addr, BitVec.ofNat 8 value, .write⟩] }

/-- R133: `SHX abs,y`: value X; three fetch Reads, the dummy Read, and the Write; PC, the trace and one byte of memory change
and nothing else. The index Y is the spec's general knowledge (G2, D16), low byte first (D17) and PC's wrap (D5) its own
decisions (log 8). -/
def Obligations.ShxAbsYResult : Prop :=
  ∀ (s : State) (opcode baseLo baseHi dummy : Byte), s.variant = .nmos6502 →
    s.mem.read s.PC.toNat = some opcode → s.mem.read (s.PC + 1#16).toNat = some baseLo →
    s.mem.read (s.PC + 2#16).toNat = some baseHi →
    let sumLo := baseLo.toNat + s.Y.toNat
    let h1 := (baseHi.toNat + 1) % 256
    s.mem.read (sumLo % 256 + 256 * baseHi.toNat) = some dummy →
    let value := h1 &&& s.X.toNat
    let addr := sumLo % 256 + 256 * (if sumLo > 255 then value else baseHi.toNat)
    exec .shxAbsY s = .next { s with
      PC := s.PC + 3#16
      mem := s.mem.write addr (BitVec.ofNat 8 value)
      trace := [⟨s.PC, opcode, .read⟩, ⟨s.PC + 1#16, baseLo, .read⟩, ⟨s.PC + 2#16, baseHi, .read⟩,
                ⟨BitVec.ofNat 16 (sumLo % 256 + 256 * baseHi.toNat), dummy, .read⟩,
                ⟨BitVec.ofNat 16 addr, BitVec.ofNat 8 value, .write⟩] }

/-- R124, R125, R126, R127: the shared algorithm, whatever the format and the index register, from the fetched base address
on. The first clause is R125's list of the value source of each class. The second: on NMOS6502, when the fetch answers and
the dummy read's address is mapped, the invocation completes, with the dummy Read (cycle 5 for `(zp),y`, else 4) at the
un-incremented high byte, S for TAS, and the Write of `h1 AND regs` at the address that takes that same value as its high byte on a page cross. -/
def Obligations.SharedAlgorithmOfTheStores : Prop :=
  (∀ p ∈ [(Instr.shaZpY, ValueSource.aAndX), (.shaAbsY, .aAndX), (.tasAbsY, .sFromAX), (.shyAbsX, .y), (.shxAbsY, .x)],
    ∃ format index, format ≠ Format.aluSel ∧ ∀ s : State, exec p.1 s = storeUnit format index p.2 s) ∧
  (∀ (format : Format) (index : IndexReg) (source : ValueSource) (s fetched : State) (base : Base) (dummy : Byte),
    format ≠ .aluSel → s.variant = .nmos6502 → fetchBase format (s.setTrace []) = .ok (base, fetched) →
    let sumLo := base.lo.toNat + (match index with | .x => s.X | .y => s.Y).toNat
    let h1 := (base.hi.toNat + 1) % 256
    let readEa := sumLo % 256 + 256 * base.hi.toNat
    s.mem.read readEa = some dummy →
    let newS := match source with | .sFromAX => s.A &&& s.X | .aAndX => s.S | .y => s.S | .x => s.S
    let regs := match source with | .sFromAX => newS | .aAndX => s.A &&& s.X | .y => s.Y | .x => s.X
    let writeVal := h1 &&& regs.toNat
    let writeAddr := sumLo % 256 + 256 * (if sumLo > 255 then writeVal else base.hi.toNat)
    fetched.trace.length = (if format = .zpy then 4 else 3) ∧
    storeUnit format index source s = .next { fetched with
      S := newS
      mem := s.mem.write writeAddr (BitVec.ofNat 8 writeVal)
      trace := fetched.trace ++ [⟨BitVec.ofNat 16 readEa, dummy, .read⟩,
        ⟨BitVec.ofNat 16 writeAddr, BitVec.ofNat 8 writeVal, .write⟩] })

/-- R136: what a store-unit invocation leaves behind. The base address is what the operand fetch gives (`fetchBase`), and
the address stored to is what `writeAddress` gives on it. Every other byte of memory reads as before. PC's wrap (D5), the
pointer's (D6), the index registers of SHY and SHX (D16) and low byte first (D17), which the address goes through, are the
spec's own decisions (log 8). -/
def Obligations.StoreUnitFrame : Prop :=
  ∀ (i : Instr) (format : Format) (index : IndexReg) (source : ValueSource), (i, format, index, source) ∈ storeTable →
    ∀ (s t : State), exec i s = .next t →
      t.variant = s.variant ∧ t.A = s.A ∧ t.X = s.X ∧ t.Y = s.Y ∧
      t.S = (if i = .tasAbsY then s.A &&& s.X else s.S) ∧
      t.N = s.N ∧ t.V = s.V ∧ t.D = s.D ∧ t.I = s.I ∧ t.Z = s.Z ∧ t.C = s.C ∧
      t.PC = s.PC + (if format = .zpy then 2#16 else 3#16) ∧
      t.aluIn = s.aluIn ∧ t.aluOut = s.aluOut ∧ t.program = s.program ∧
      ∃ (base : Base) (fetched : State), fetchBase format (s.setTrace []) = .ok (base, fetched) ∧
        let regs := (combineRegs source s).1
        let addr := writeAddress base.lo base.hi (indexValue index s) regs
        t.mem.read addr.toNat = some (writeValue base.hi regs) ∧
        ∀ a : Nat, a ≠ addr.toNat → t.mem.read a = s.mem.read a

/-- R120, R34, R57, R128: the trace of a store-unit invocation: exactly 6 cycles for the `(zp),y` class and 5 for the
others; all Reads come first and return the snapshot's bytes (also where the Write lands on one of them, R60), and the one
Write comes last and is what memory then holds. -/
def Obligations.TraceIsReadsOfTheSnapshotThenOneWrite : Prop :=
  ∀ i ∈ storeInstrs, ∀ (s t : State), exec i s = .next t →
    ∃ (reads : List BusCycle) (addr : Addr) (v : Byte),
      t.trace = reads ++ [⟨addr, v, .write⟩] ∧ t.trace.length = (if i = .shaZpY then 6 else 5) ∧
      (∀ c ∈ reads, c.direction = .read ∧ s.mem.read c.address.toNat = some c.value) ∧
      t.mem = s.mem.write addr.toNat v ∧ t.mem.read addr.toNat = some v

/-- R126, R177: without a page cross the write of a store goes to the ordinary `base + index`, the dummy read's address;
with one it goes there exactly when `regs` has a 1 wherever `h1` has. The base bytes are those after the opcode byte, for
`(zp),y` those of the pointer. PC's wrap (D5), the pointer's (D6), the index registers of SHY and SHX (D16) and low byte
first (D17) are the spec's own decisions (log 8). -/
def Obligations.WhereTheWriteLands : Prop :=
  ∀ (i : Instr) (format : Format) (index : IndexReg) (source : ValueSource), (i, format, index, source) ∈ storeTable →
    ∀ (s t : State) (baseLo baseHi : Byte), exec i s = .next t →
      (format = .abs ∧ s.mem.read (s.PC + 1#16).toNat = some baseLo ∧ s.mem.read (s.PC + 2#16).toNat = some baseHi ∨
        format = .zpy ∧ ∃ zp : Byte, s.mem.read (s.PC + 1#16).toNat = some zp ∧ s.mem.read zp.toNat = some baseLo ∧
          s.mem.read ((zp.toNat + 1) % 256) = some baseHi) →
      let ordinary := 256 * baseHi.toNat + baseLo.toNat + (indexValue index s).toNat
      let regs := (combineRegs source s).1
      let h1 := baseHi + 1#8
      ∃ (pre : List BusCycle) (dummyAddr addr : Addr) (d v : Byte),
        t.trace = pre ++ [⟨dummyAddr, d, .read⟩, ⟨addr, v, .write⟩] ∧ v = h1 &&& regs ∧
        (baseLo.toNat + (indexValue index s).toNat ≤ 255 → addr = dummyAddr ∧ addr.toNat = ordinary) ∧
        (baseLo.toNat + (indexValue index s).toNat > 255 → (addr.toNat = ordinary % 65536 ↔ h1 &&& regs = h1))

/-- R124: the byte of the dummy read influences no register, no flag, no address and not the written value, only the value
of its own cycle. If no other Read of the invocation uses that address, another byte there leaves every field of the next
state as it was but the value of that one cycle of the trace, and memory at that address, which holds the other byte
unless the Write lands on it. -/
def Obligations.DummyByteReachesOnlyTheTrace : Prop :=
  ∀ i ∈ storeInstrs, ∀ (s t : State) (pre : List BusCycle) (addr : Addr) (d : Byte) (w : BusCycle),
    exec i s = .next t → t.trace = pre ++ [⟨addr, d, .read⟩, w] → (∀ c ∈ pre, c.address ≠ addr) →
    ∀ b : Byte,
      let mem := (s.mem.write addr.toNat b).write w.address.toNat w.value
      exec i { s with mem := s.mem.write addr.toNat b } =
        .next { t with mem := mem, trace := pre ++ [⟨addr, b, .read⟩, w] } ∧
      ∀ a : Nat, a ≠ addr.toNat ∨ a = w.address.toNat → mem.read a = t.mem.read a

/-- R131: the old value of S has no influence on anything a TAS does. -/
def Obligations.TasIgnoresOldS : Prop :=
  ∀ (s : State) (old : Byte), exec .tasAbsY { s with S := old } = exec .tasAbsY s

/-- R132, R133: A plays no part in SHY and SHX. -/
def Obligations.ShyAndShxIgnoreA : Prop :=
  ∀ i ∈ [Instr.shyAbsX, .shxAbsY], ∀ (s t : State) (a : Byte), exec i s = .next t →
    exec i { s with A := a } = .next { t with A := a }

/-- R31: no store-unit rule reads or writes any flag. -/
def Obligations.StoreUnitReadsNoFlag : Prop :=
  ∀ i ∈ storeInstrs, ∀ (s t : State) (n v d f z c : Bool), exec i s = .next t →
    exec i { s with N := n, V := v, D := d, I := f, Z := z, C := c } =
      .next { t with N := n, V := v, D := d, I := f, Z := z, C := c }

/-- R121, R152: on CMOS65C02 every store-unit invocation is refused, the spec's decision D8 (log 8): each instruction, an
`execute` with any class code (that R121 is tested before R77 is log 9), and a `dispatch` on one of the five opcode bytes
(log 4, log 9; the bytes are D15, log 8). -/
def Obligations.StoreUnitRefusedOnCmos : Prop :=
  ∀ s : State, s.variant = .cmos65c02 →
    (∀ i ∈ storeInstrs, exec i s = .refused .storeUnitOnCMOS) ∧
    (∀ (code : BitVec 3) (rest : List Invocation), s.program = .execute code :: rest →
      step s = .refused .storeUnitOnCMOS) ∧
    (∀ (opcode : Byte) (rest : List Invocation), s.program = .dispatch :: rest →
      s.mem.read s.PC.toNat = some opcode → opcode ∈ [0x93#8, 0x9F#8, 0x9B#8, 0x9C#8, 0x9E#8] →
      step s = .refused .storeUnitOnCMOS)

/-- R56, R137, R152: on NMOS6502 a store-unit invocation completes, or is refused for an address that memory does not map
(the spec's decision D7, log 2); an unmapped opcode byte is one; with a total memory it completes, and the memory stays total. -/
def Obligations.StoreUnitRunsUnlessUnmapped : Prop :=
  ∀ i ∈ storeInstrs, ∀ s : State, s.variant = .nmos6502 →
    ((∃ t, exec i s = .next t) ∨ ∃ a : Addr, exec i s = .refused (.unmappedRead a) ∧ s.mem.read a.toNat = none) ∧
    (s.mem.read s.PC.toNat = none → exec i s = .refused (.unmappedRead s.PC)) ∧
    (TotalMem s → ∃ t, exec i s = .next t ∧ TotalMem t)

/-! ### Memory -/

/-- R13, R51, R55, R56: a read returns the last value written and adds one Read cycle, a write adds one Write cycle and
changes one byte, and writing the same byte again leaves the same memory. A read of an address that memory does not map is
refused by name, the spec's own decision D7 (log 2), and that every address is plain storage is its decision D11 (log 8). -/
def Obligations.MemoryPrimitives : Prop :=
  ∀ (s : State) (addr : Addr) (v : Byte),
    let t := memWrite addr v s
    t.trace = s.trace ++ [⟨addr, v, .write⟩] ∧
    memRead addr t = .ok (v, { t with trace := t.trace ++ [⟨addr, v, .read⟩] }) ∧
    (∀ a : Nat, a ≠ addr.toNat → t.mem.read a = s.mem.read a) ∧
    (memWrite addr v t).mem = t.mem ∧
    (s.mem.read addr.toNat = none → memRead addr s = .error (.unmappedRead addr)) ∧
    (∀ b, s.mem.read addr.toNat = some b → memRead addr s = .ok (b, { s with trace := s.trace ++ [⟨addr, b, .read⟩] }))

/-- Of the model (log 2): the canonical form makes equal memories equal data, and writing keeps it. -/
def Obligations.CanonicalMemoriesAreDeterminedByTheirReads : Prop :=
  (∀ m m' : Memory, m.wf = true → m'.wf = true → (∀ a : Nat, m.read a = m'.read a) → m = m') ∧
  (∀ (m : Memory) (addr : Addr) (v : Byte), m.wf = true → (m.write addr.toNat v).wf = true)

/-! ### The whole machine -/

/-- The invariant (log 2; R34, R120, R128): memory keeps its canonical form, and the trace is empty or that of a complete
store-unit invocation whose Write memory still holds. Every step keeps it, whatever the invocation. -/
def Obligations.StepKeepsTheInvariant : Prop :=
  ∀ s t : State, s.Inv → step s = .next t → t.Inv

/-- The invariant holds at the state this model names for reset. R35 gives the empty trace; the spec gives no other reset
value (D10), and the strap and the zero registers and flags (log 1), the memory that lists nothing (log 2), the zeros in
the ALU's ports (log 3) and the empty program (log 4) are the model's choice. -/
def Obligations.ResetMeetsTheInvariant : Prop :=
  State.reset.Inv ∧ State.reset.trace = [] ∧ State.reset.variant = .nmos6502 ∧
    State.reset.PC = 0#16 ∧ State.reset.A = 0#8 ∧ State.reset.X = 0#8 ∧ State.reset.Y = 0#8 ∧ State.reset.S = 0#8 ∧
    State.reset.N = false ∧ State.reset.V = false ∧ State.reset.D = false ∧ State.reset.I = false ∧
    State.reset.Z = false ∧ State.reset.C = false ∧
    State.reset.aluIn = ⟨false, 0#8, 0#8, false⟩ ∧ State.reset.aluOut = ⟨0#8, false, false, false, false⟩ ∧
    State.reset.program = [] ∧ (∀ a : Nat, State.reset.mem.read a = none)

/-- R4, R9, R21, R26, R28, R31: no step changes the strap, X, Y, D or I; only a bound ADC or SBC changes A or a flag; only
the store unit changes PC, S, memory or the trace; and a step takes exactly one invocation off the list. That the list is
in State (log 4; R182, D14) and that the ports and the trace keep their last values (log 3) is the model's choice. -/
def Obligations.WhoMayChangeWhat : Prop :=
  ∀ s t : State, step s = .next t →
    t.variant = s.variant ∧ t.X = s.X ∧ t.Y = s.Y ∧ t.D = s.D ∧ t.I = s.I ∧
    ∃ inv, s.program = inv :: t.program ∧
      ((∃ o b, inv = .bound o b) ∨ (t.A = s.A ∧ t.N = s.N ∧ t.V = s.V ∧ t.Z = s.Z ∧ t.C = s.C)) ∧
      ((∃ code, inv = .execute code) ∨ inv = .dispatch ∨
        (t.PC = s.PC ∧ t.S = s.S ∧ t.mem = s.mem ∧ t.trace = s.trace)) ∧
      ((∃ v o x, inv = .compute v o x) ∨ (∃ o b, inv = .bound o b) ∨ (t.aluIn = s.aluIn ∧ t.aluOut = s.aluOut))

/-- R150: no instruction raises an exception: in every state its outcome is a next state or one of the spec's refusals,
never a fault. The two refusals are the spec's own decisions D8 (log 8) and D7 (log 2). -/
def Obligations.NoInstructionFaults : Prop :=
  ∀ (i : Instr) (s : State),
    (∃ t, exec i s = .next t) ∨ exec i s = .refused .storeUnitOnCMOS ∨ ∃ a, exec i s = .refused (.unmappedRead a)

/-- Of the model (log 4; R182, D14): a step stops with the model's one fault exactly when no invocation is left. -/
def Obligations.RunEndsWhenTheListEnds : Prop :=
  ∀ s : State, (∃ f, step s = .fault f) ↔ s.program = []

/-- R150, R151, R182: on an NMOS6502 instance with a total memory, every program of invocations the caller states in full,
however long, runs to its end without a refusal or a fault. That a run is a list is the spec's decision D14, and that
nothing of the dispatcher happens between its steps is the model's choice (log 4, unsafe for several steps). A `dispatch`
and CMOS65C02, whose stores are refused, are not covered. -/
def Obligations.EveryStatedProgramRunsToItsEnd : Prop :=
  ∀ s : State, s.variant = .nmos6502 → TotalMem s → (∀ inv ∈ s.program, statedInvocation inv = true) →
    ∃ t, RunsToEnd s t ∧ TotalMem t

/-- R60, R76: a store is seen by the next invocation's fetch with nothing in between. If a store's Write leaves one of the
five opcode bytes at the address where the next invocation decodes, the step after it runs that opcode. That an invocation
may decode at PC (`dispatch`) and that the next of the list follows at once (R182) is the model's choice (log 4). -/
def Obligations.StoreIsSeenByTheNextFetch : Prop :=
  ∀ i ∈ storeInstrs, ∀ (s t : State) (pre : List BusCycle) (opcode : Byte) (j : Instr) (rest : List Invocation),
    exec i s = .next t → t.trace = pre ++ [⟨t.PC, opcode, .write⟩] → decodeOpcode opcode = .ok j →
    t.program = .dispatch :: rest →
    step t = exec j { t with program := rest }
end

