-- ==== Sys2Proof/Laws/Alu.lean ====
section
/-! SUPPORT. The bit and nibble helpers in plain arithmetic, so that a proof about a result reaches omega without unfolding
bit vectors. -/

namespace Sys2Proof.Machine

/-- Bit 7 of a byte, as R11 says it. -/
theorem bit7_eq (b : Byte) : bit7 b = (b.toNat / 2 ^ 7 % 2 == 1) := by
  simp only [bit7, BitVec.getLsbD, Nat.testBit_eq_decide_div_mod_eq]
  rfl

/-- Bit 7 of a byte is set exactly from 128 on. -/
theorem bit7_iff (b : Byte) : bit7 b = true ↔ 128 ≤ b.toNat := by
  rw [bit7_eq]
  have := b.isLt
  simp only [beq_iff_eq]
  omega

/-- The one's complement of a byte, as a number (R91). -/
theorem not8_toNat (b : Byte) : (not8 b).toNat = 255 - b.toNat := by
  have h : not8 b = ~~~b := by
    simp only [not8]
    rw [BitVec.xor_comm]
    exact BitVec.allOnes_xor
  rw [h, BitVec.toNat_not]

theorem lo_le (b : Byte) : lo b ≤ 15 := by unfold lo; omega

theorem hi_le (b : Byte) : hi b ≤ 15 := by unfold hi; have := b.isLt; omega

theorem byte_eq_nibbles (b : Byte) : b.toNat = 16 * hi b + lo b := by unfold hi lo; omega

/-- A byte is zero exactly when its number is. -/
theorem zeroFlag_iff (b : Byte) : zeroFlag b = true ↔ b.toNat = 0 := by
  simp only [zeroFlag, beq_iff_eq]
  constructor
  · rintro rfl; rfl
  · intro h; exact BitVec.eq_of_toNat_eq (by simpa using h)

/-- Two four-bit nibbles concatenate without loss (R11). -/
theorem concatNibbles_toNat {h l : Nat} (hh : h < 16) (hl : l < 16) : (concatNibbles h l).toNat = 16 * h + l := by
  simp only [concatNibbles, BitVec.toNat_ofNat]
  omega

/-- What the correction of a nibble sum gives (R100). -/
theorem correctSum_spec (v : Nat) :
    (correctSum v).digit = (if v ≥ 10 then v - 10 else v) % 16 ∧ ((correctSum v).out = decide (v ≥ 10)) := by
  unfold correctSum
  split_ifs with h <;> simp [h]

theorem correctSum_digit_lt (v : Nat) : (correctSum v).digit < 16 := by
  rw [(correctSum_spec v).1]; omega

/-- What the correction of a nibble difference gives (R110). -/
theorem correctDifference_spec (v : Int) :
    ((correctDifference v).digit : Int) = (if v < 0 then v + 10 else v) % 16 ∧
      ((correctDifference v).out = decide (v < 0)) := by
  unfold correctDifference
  split_ifs with h
  · exact ⟨Int.toNat_of_nonneg (Int.emod_nonneg _ (by decide)), by simp [h]⟩
  · exact ⟨Int.toNat_of_nonneg (Int.emod_nonneg _ (by decide)), by simp [h]⟩

theorem correctDifference_digit_lt (v : Int) : (correctDifference v).digit < 16 := by
  have := (correctDifference_spec v).1
  omega

/-- The binary difference as a number (R110). -/
theorem binaryDifference_toNat (c : Bool) (a m : Byte) :
    ((binaryDifference c a m).toNat : Int) = ((a.toNat : Int) - m.toNat - (1 - (c.toNat : Int))) % 256 := by
  simp only [binaryDifference, borrowIn, BitVec.toNat_ofInt]
  rw [Int.toNat_of_nonneg (Int.emod_nonneg _ (by decide))]
  rfl

/-- The binary sum of R91 is the difference of R110, shifted by 256. -/
theorem binarySubtract_accumulator (c : Bool) (a m : Byte) :
    (binarySubtract c a m).accumulator = binaryDifference c a m := by
  apply BitVec.eq_of_toNat_eq
  have h := binaryDifference_toNat c a m
  have hm := m.isLt
  simp only [binarySubtract, binaryAdd, BitVec.toNat_ofNat, not8_toNat]
  omega

end Sys2Proof.Machine
end

