-- ==== Sys2Proof/Laws/Memory.lean ====
section
/-! SUPPORT. The laws of the sparse memory: read after write, and that a write keeps the canonical form. -/

namespace Sys2Proof.Machine

/-- A read after a write to the same address gives the value written. -/
@[simp] theorem Memory.read_write_same (m : Memory) (a : Nat) (v : Byte) : (m.write a v).read a = some v := by
  induction m with
  | nil => simp [Memory.write, Memory.read]
  | cons c rest ih =>
    obtain ⟨b, w⟩ := c
    unfold Memory.write
    split_ifs with h1 h2
    · simp [Memory.read]
    · simp [Memory.read]
    · simp [Memory.read, h2, ih]

/-- A write leaves every other address alone. -/
theorem Memory.read_write_other (m : Memory) {a a' : Nat} (v : Byte) (h : a' ≠ a) :
    (m.write a v).read a' = m.read a' := by
  induction m with
  | nil => simp [Memory.write, Memory.read, h]
  | cons c rest ih =>
    obtain ⟨b, w⟩ := c
    unfold Memory.write
    split_ifs with h1 h2
    · simp [Memory.read, h]
    · subst h2; simp [Memory.read, h]
    · simp [Memory.read, ih]

/-- What any address reads as after a write. -/
theorem Memory.read_write (m : Memory) (a a' : Nat) (v : Byte) :
    (m.write a v).read a' = if a' = a then some v else m.read a' := by
  split_ifs with h
  · rw [h, Memory.read_write_same]
  · exact Memory.read_write_other m v h

/-- A lower bound of the listed addresses may be lowered. -/
theorem Memory.risingFrom_mono {low low' : Nat} (m : Memory) (h : low' ≤ low) (hm : m.risingFrom low = true) :
    m.risingFrom low' = true := by
  cases m with
  | nil => rfl
  | cons c rest =>
    obtain ⟨b, w⟩ := c
    simp only [Memory.risingFrom, Bool.and_eq_true, decide_eq_true_eq] at hm ⊢
    exact ⟨⟨by omega, hm.1.2⟩, hm.2⟩

/-- An address below the bound is not listed. -/
theorem Memory.read_below {low a : Nat} (m : Memory) (hm : m.risingFrom low = true) (h : a < low) : m.read a = none := by
  induction m generalizing low with
  | nil => rfl
  | cons c rest ih =>
    obtain ⟨b, w⟩ := c
    simp only [Memory.risingFrom, Bool.and_eq_true, decide_eq_true_eq] at hm
    simp only [Memory.read, show a ≠ b by omega, if_false]
    exact ih hm.2 (by omega)

/-- A write at or above the bound, inside the address space, keeps the listed addresses rising. -/
theorem Memory.risingFrom_write {low a : Nat} (m : Memory) (v : Byte) (hm : m.risingFrom low = true) (hlow : low ≤ a)
    (ha : a < 65536) : (m.write a v).risingFrom low = true := by
  induction m generalizing low with
  | nil => simp [Memory.write, Memory.risingFrom, hlow, ha]
  | cons c rest ih =>
    obtain ⟨b, w⟩ := c
    simp only [Memory.risingFrom, Bool.and_eq_true, decide_eq_true_eq] at hm
    unfold Memory.write
    split_ifs with h1 h2
    · simp only [Memory.risingFrom, Bool.and_eq_true, decide_eq_true_eq]
      exact ⟨⟨hlow, ha⟩, ⟨by omega, hm.1.2⟩, hm.2⟩
    · subst h2
      simp only [Memory.risingFrom, Bool.and_eq_true, decide_eq_true_eq]
      exact hm
    · simp only [Memory.risingFrom, Bool.and_eq_true, decide_eq_true_eq]
      exact ⟨hm.1, ih hm.2 (by omega)⟩

/-- Every write by an address of the machine keeps the canonical form. -/
theorem Memory.wf_write {m : Memory} (addr : Addr) (v : Byte) (hm : m.wf = true) : (m.write addr.toNat v).wf = true :=
  Memory.risingFrom_write m v hm (Nat.zero_le _) addr.isLt

end Sys2Proof.Machine
end

