-- ==== Sys2Proof/Laws/State.lean ====
section
/-! SUPPORT. For every update of State, what each field reads afterwards: no later proof unfolds a record update. -/

namespace Sys2Proof.Machine.State

@[simp] theorem setPC_variant (s : State) (pc : Addr) : (s.setPC pc).variant = s.variant := rfl
@[simp] theorem setPC_PC (s : State) (pc : Addr) : (s.setPC pc).PC = pc := rfl
@[simp] theorem setPC_A (s : State) (pc : Addr) : (s.setPC pc).A = s.A := rfl
@[simp] theorem setPC_X (s : State) (pc : Addr) : (s.setPC pc).X = s.X := rfl
@[simp] theorem setPC_Y (s : State) (pc : Addr) : (s.setPC pc).Y = s.Y := rfl
@[simp] theorem setPC_S (s : State) (pc : Addr) : (s.setPC pc).S = s.S := rfl
@[simp] theorem setPC_N (s : State) (pc : Addr) : (s.setPC pc).N = s.N := rfl
@[simp] theorem setPC_V (s : State) (pc : Addr) : (s.setPC pc).V = s.V := rfl
@[simp] theorem setPC_D (s : State) (pc : Addr) : (s.setPC pc).D = s.D := rfl
@[simp] theorem setPC_I (s : State) (pc : Addr) : (s.setPC pc).I = s.I := rfl
@[simp] theorem setPC_Z (s : State) (pc : Addr) : (s.setPC pc).Z = s.Z := rfl
@[simp] theorem setPC_C (s : State) (pc : Addr) : (s.setPC pc).C = s.C := rfl
@[simp] theorem setPC_mem (s : State) (pc : Addr) : (s.setPC pc).mem = s.mem := rfl
@[simp] theorem setPC_trace (s : State) (pc : Addr) : (s.setPC pc).trace = s.trace := rfl
@[simp] theorem setPC_aluIn (s : State) (pc : Addr) : (s.setPC pc).aluIn = s.aluIn := rfl
@[simp] theorem setPC_aluOut (s : State) (pc : Addr) : (s.setPC pc).aluOut = s.aluOut := rfl
@[simp] theorem setPC_program (s : State) (pc : Addr) : (s.setPC pc).program = s.program := rfl

@[simp] theorem setS_variant (s : State) (v : Byte) : (s.setS v).variant = s.variant := rfl
@[simp] theorem setS_PC (s : State) (v : Byte) : (s.setS v).PC = s.PC := rfl
@[simp] theorem setS_A (s : State) (v : Byte) : (s.setS v).A = s.A := rfl
@[simp] theorem setS_X (s : State) (v : Byte) : (s.setS v).X = s.X := rfl
@[simp] theorem setS_Y (s : State) (v : Byte) : (s.setS v).Y = s.Y := rfl
@[simp] theorem setS_S (s : State) (v : Byte) : (s.setS v).S = v := rfl
@[simp] theorem setS_N (s : State) (v : Byte) : (s.setS v).N = s.N := rfl
@[simp] theorem setS_V (s : State) (v : Byte) : (s.setS v).V = s.V := rfl
@[simp] theorem setS_D (s : State) (v : Byte) : (s.setS v).D = s.D := rfl
@[simp] theorem setS_I (s : State) (v : Byte) : (s.setS v).I = s.I := rfl
@[simp] theorem setS_Z (s : State) (v : Byte) : (s.setS v).Z = s.Z := rfl
@[simp] theorem setS_C (s : State) (v : Byte) : (s.setS v).C = s.C := rfl
@[simp] theorem setS_mem (s : State) (v : Byte) : (s.setS v).mem = s.mem := rfl
@[simp] theorem setS_trace (s : State) (v : Byte) : (s.setS v).trace = s.trace := rfl
@[simp] theorem setS_aluIn (s : State) (v : Byte) : (s.setS v).aluIn = s.aluIn := rfl
@[simp] theorem setS_aluOut (s : State) (v : Byte) : (s.setS v).aluOut = s.aluOut := rfl
@[simp] theorem setS_program (s : State) (v : Byte) : (s.setS v).program = s.program := rfl

@[simp] theorem setMem_variant (s : State) (m : Memory) : (s.setMem m).variant = s.variant := rfl
@[simp] theorem setMem_PC (s : State) (m : Memory) : (s.setMem m).PC = s.PC := rfl
@[simp] theorem setMem_A (s : State) (m : Memory) : (s.setMem m).A = s.A := rfl
@[simp] theorem setMem_X (s : State) (m : Memory) : (s.setMem m).X = s.X := rfl
@[simp] theorem setMem_Y (s : State) (m : Memory) : (s.setMem m).Y = s.Y := rfl
@[simp] theorem setMem_S (s : State) (m : Memory) : (s.setMem m).S = s.S := rfl
@[simp] theorem setMem_N (s : State) (m : Memory) : (s.setMem m).N = s.N := rfl
@[simp] theorem setMem_V (s : State) (m : Memory) : (s.setMem m).V = s.V := rfl
@[simp] theorem setMem_D (s : State) (m : Memory) : (s.setMem m).D = s.D := rfl
@[simp] theorem setMem_I (s : State) (m : Memory) : (s.setMem m).I = s.I := rfl
@[simp] theorem setMem_Z (s : State) (m : Memory) : (s.setMem m).Z = s.Z := rfl
@[simp] theorem setMem_C (s : State) (m : Memory) : (s.setMem m).C = s.C := rfl
@[simp] theorem setMem_mem (s : State) (m : Memory) : (s.setMem m).mem = m := rfl
@[simp] theorem setMem_trace (s : State) (m : Memory) : (s.setMem m).trace = s.trace := rfl
@[simp] theorem setMem_aluIn (s : State) (m : Memory) : (s.setMem m).aluIn = s.aluIn := rfl
@[simp] theorem setMem_aluOut (s : State) (m : Memory) : (s.setMem m).aluOut = s.aluOut := rfl
@[simp] theorem setMem_program (s : State) (m : Memory) : (s.setMem m).program = s.program := rfl

@[simp] theorem setTrace_variant (s : State) (l : List BusCycle) : (s.setTrace l).variant = s.variant := rfl
@[simp] theorem setTrace_PC (s : State) (l : List BusCycle) : (s.setTrace l).PC = s.PC := rfl
@[simp] theorem setTrace_A (s : State) (l : List BusCycle) : (s.setTrace l).A = s.A := rfl
@[simp] theorem setTrace_X (s : State) (l : List BusCycle) : (s.setTrace l).X = s.X := rfl
@[simp] theorem setTrace_Y (s : State) (l : List BusCycle) : (s.setTrace l).Y = s.Y := rfl
@[simp] theorem setTrace_S (s : State) (l : List BusCycle) : (s.setTrace l).S = s.S := rfl
@[simp] theorem setTrace_N (s : State) (l : List BusCycle) : (s.setTrace l).N = s.N := rfl
@[simp] theorem setTrace_V (s : State) (l : List BusCycle) : (s.setTrace l).V = s.V := rfl
@[simp] theorem setTrace_D (s : State) (l : List BusCycle) : (s.setTrace l).D = s.D := rfl
@[simp] theorem setTrace_I (s : State) (l : List BusCycle) : (s.setTrace l).I = s.I := rfl
@[simp] theorem setTrace_Z (s : State) (l : List BusCycle) : (s.setTrace l).Z = s.Z := rfl
@[simp] theorem setTrace_C (s : State) (l : List BusCycle) : (s.setTrace l).C = s.C := rfl
@[simp] theorem setTrace_mem (s : State) (l : List BusCycle) : (s.setTrace l).mem = s.mem := rfl
@[simp] theorem setTrace_trace (s : State) (l : List BusCycle) : (s.setTrace l).trace = l := rfl
@[simp] theorem setTrace_aluIn (s : State) (l : List BusCycle) : (s.setTrace l).aluIn = s.aluIn := rfl
@[simp] theorem setTrace_aluOut (s : State) (l : List BusCycle) : (s.setTrace l).aluOut = s.aluOut := rfl
@[simp] theorem setTrace_program (s : State) (l : List BusCycle) : (s.setTrace l).program = s.program := rfl

@[simp] theorem addCycle_variant (s : State) (c : BusCycle) : (s.addCycle c).variant = s.variant := rfl
@[simp] theorem addCycle_PC (s : State) (c : BusCycle) : (s.addCycle c).PC = s.PC := rfl
@[simp] theorem addCycle_A (s : State) (c : BusCycle) : (s.addCycle c).A = s.A := rfl
@[simp] theorem addCycle_X (s : State) (c : BusCycle) : (s.addCycle c).X = s.X := rfl
@[simp] theorem addCycle_Y (s : State) (c : BusCycle) : (s.addCycle c).Y = s.Y := rfl
@[simp] theorem addCycle_S (s : State) (c : BusCycle) : (s.addCycle c).S = s.S := rfl
@[simp] theorem addCycle_N (s : State) (c : BusCycle) : (s.addCycle c).N = s.N := rfl
@[simp] theorem addCycle_V (s : State) (c : BusCycle) : (s.addCycle c).V = s.V := rfl
@[simp] theorem addCycle_D (s : State) (c : BusCycle) : (s.addCycle c).D = s.D := rfl
@[simp] theorem addCycle_I (s : State) (c : BusCycle) : (s.addCycle c).I = s.I := rfl
@[simp] theorem addCycle_Z (s : State) (c : BusCycle) : (s.addCycle c).Z = s.Z := rfl
@[simp] theorem addCycle_C (s : State) (c : BusCycle) : (s.addCycle c).C = s.C := rfl
@[simp] theorem addCycle_mem (s : State) (c : BusCycle) : (s.addCycle c).mem = s.mem := rfl
@[simp] theorem addCycle_trace (s : State) (c : BusCycle) : (s.addCycle c).trace = s.trace ++ [c] := rfl
@[simp] theorem addCycle_aluIn (s : State) (c : BusCycle) : (s.addCycle c).aluIn = s.aluIn := rfl
@[simp] theorem addCycle_aluOut (s : State) (c : BusCycle) : (s.addCycle c).aluOut = s.aluOut := rfl
@[simp] theorem addCycle_program (s : State) (c : BusCycle) : (s.addCycle c).program = s.program := rfl

@[simp] theorem setAluIn_variant (s : State) (input : AluInput) : (s.setAluIn input).variant = s.variant := rfl
@[simp] theorem setAluIn_PC (s : State) (input : AluInput) : (s.setAluIn input).PC = s.PC := rfl
@[simp] theorem setAluIn_A (s : State) (input : AluInput) : (s.setAluIn input).A = s.A := rfl
@[simp] theorem setAluIn_X (s : State) (input : AluInput) : (s.setAluIn input).X = s.X := rfl
@[simp] theorem setAluIn_Y (s : State) (input : AluInput) : (s.setAluIn input).Y = s.Y := rfl
@[simp] theorem setAluIn_S (s : State) (input : AluInput) : (s.setAluIn input).S = s.S := rfl
@[simp] theorem setAluIn_N (s : State) (input : AluInput) : (s.setAluIn input).N = s.N := rfl
@[simp] theorem setAluIn_V (s : State) (input : AluInput) : (s.setAluIn input).V = s.V := rfl
@[simp] theorem setAluIn_D (s : State) (input : AluInput) : (s.setAluIn input).D = s.D := rfl
@[simp] theorem setAluIn_I (s : State) (input : AluInput) : (s.setAluIn input).I = s.I := rfl
@[simp] theorem setAluIn_Z (s : State) (input : AluInput) : (s.setAluIn input).Z = s.Z := rfl
@[simp] theorem setAluIn_C (s : State) (input : AluInput) : (s.setAluIn input).C = s.C := rfl
@[simp] theorem setAluIn_mem (s : State) (input : AluInput) : (s.setAluIn input).mem = s.mem := rfl
@[simp] theorem setAluIn_trace (s : State) (input : AluInput) : (s.setAluIn input).trace = s.trace := rfl
@[simp] theorem setAluIn_aluIn (s : State) (input : AluInput) : (s.setAluIn input).aluIn = input := rfl
@[simp] theorem setAluIn_aluOut (s : State) (input : AluInput) : (s.setAluIn input).aluOut = s.aluOut := rfl
@[simp] theorem setAluIn_program (s : State) (input : AluInput) : (s.setAluIn input).program = s.program := rfl

@[simp] theorem setAluOut_variant (s : State) (result : AluResult) : (s.setAluOut result).variant = s.variant := rfl
@[simp] theorem setAluOut_PC (s : State) (result : AluResult) : (s.setAluOut result).PC = s.PC := rfl
@[simp] theorem setAluOut_A (s : State) (result : AluResult) : (s.setAluOut result).A = s.A := rfl
@[simp] theorem setAluOut_X (s : State) (result : AluResult) : (s.setAluOut result).X = s.X := rfl
@[simp] theorem setAluOut_Y (s : State) (result : AluResult) : (s.setAluOut result).Y = s.Y := rfl
@[simp] theorem setAluOut_S (s : State) (result : AluResult) : (s.setAluOut result).S = s.S := rfl
@[simp] theorem setAluOut_N (s : State) (result : AluResult) : (s.setAluOut result).N = s.N := rfl
@[simp] theorem setAluOut_V (s : State) (result : AluResult) : (s.setAluOut result).V = s.V := rfl
@[simp] theorem setAluOut_D (s : State) (result : AluResult) : (s.setAluOut result).D = s.D := rfl
@[simp] theorem setAluOut_I (s : State) (result : AluResult) : (s.setAluOut result).I = s.I := rfl
@[simp] theorem setAluOut_Z (s : State) (result : AluResult) : (s.setAluOut result).Z = s.Z := rfl
@[simp] theorem setAluOut_C (s : State) (result : AluResult) : (s.setAluOut result).C = s.C := rfl
@[simp] theorem setAluOut_mem (s : State) (result : AluResult) : (s.setAluOut result).mem = s.mem := rfl
@[simp] theorem setAluOut_trace (s : State) (result : AluResult) : (s.setAluOut result).trace = s.trace := rfl
@[simp] theorem setAluOut_aluIn (s : State) (result : AluResult) : (s.setAluOut result).aluIn = s.aluIn := rfl
@[simp] theorem setAluOut_aluOut (s : State) (result : AluResult) : (s.setAluOut result).aluOut = result := rfl
@[simp] theorem setAluOut_program (s : State) (result : AluResult) : (s.setAluOut result).program = s.program := rfl

@[simp] theorem setProgram_variant (s : State) (l : List Invocation) : (s.setProgram l).variant = s.variant := rfl
@[simp] theorem setProgram_PC (s : State) (l : List Invocation) : (s.setProgram l).PC = s.PC := rfl
@[simp] theorem setProgram_A (s : State) (l : List Invocation) : (s.setProgram l).A = s.A := rfl
@[simp] theorem setProgram_X (s : State) (l : List Invocation) : (s.setProgram l).X = s.X := rfl
@[simp] theorem setProgram_Y (s : State) (l : List Invocation) : (s.setProgram l).Y = s.Y := rfl
@[simp] theorem setProgram_S (s : State) (l : List Invocation) : (s.setProgram l).S = s.S := rfl
@[simp] theorem setProgram_N (s : State) (l : List Invocation) : (s.setProgram l).N = s.N := rfl
@[simp] theorem setProgram_V (s : State) (l : List Invocation) : (s.setProgram l).V = s.V := rfl
@[simp] theorem setProgram_D (s : State) (l : List Invocation) : (s.setProgram l).D = s.D := rfl
@[simp] theorem setProgram_I (s : State) (l : List Invocation) : (s.setProgram l).I = s.I := rfl
@[simp] theorem setProgram_Z (s : State) (l : List Invocation) : (s.setProgram l).Z = s.Z := rfl
@[simp] theorem setProgram_C (s : State) (l : List Invocation) : (s.setProgram l).C = s.C := rfl
@[simp] theorem setProgram_mem (s : State) (l : List Invocation) : (s.setProgram l).mem = s.mem := rfl
@[simp] theorem setProgram_trace (s : State) (l : List Invocation) : (s.setProgram l).trace = s.trace := rfl
@[simp] theorem setProgram_aluIn (s : State) (l : List Invocation) : (s.setProgram l).aluIn = s.aluIn := rfl
@[simp] theorem setProgram_aluOut (s : State) (l : List Invocation) : (s.setProgram l).aluOut = s.aluOut := rfl
@[simp] theorem setProgram_program (s : State) (l : List Invocation) : (s.setProgram l).program = l := rfl

@[simp] theorem bindResult_variant (s : State) (r : AluResult) : (s.bindResult r).variant = s.variant := rfl
@[simp] theorem bindResult_PC (s : State) (r : AluResult) : (s.bindResult r).PC = s.PC := rfl
@[simp] theorem bindResult_A (s : State) (r : AluResult) : (s.bindResult r).A = r.accumulator := rfl
@[simp] theorem bindResult_X (s : State) (r : AluResult) : (s.bindResult r).X = s.X := rfl
@[simp] theorem bindResult_Y (s : State) (r : AluResult) : (s.bindResult r).Y = s.Y := rfl
@[simp] theorem bindResult_S (s : State) (r : AluResult) : (s.bindResult r).S = s.S := rfl
@[simp] theorem bindResult_N (s : State) (r : AluResult) : (s.bindResult r).N = r.negative := rfl
@[simp] theorem bindResult_V (s : State) (r : AluResult) : (s.bindResult r).V = r.overflow := rfl
@[simp] theorem bindResult_D (s : State) (r : AluResult) : (s.bindResult r).D = s.D := rfl
@[simp] theorem bindResult_I (s : State) (r : AluResult) : (s.bindResult r).I = s.I := rfl
@[simp] theorem bindResult_Z (s : State) (r : AluResult) : (s.bindResult r).Z = r.zero := rfl
@[simp] theorem bindResult_C (s : State) (r : AluResult) : (s.bindResult r).C = r.carry := rfl
@[simp] theorem bindResult_mem (s : State) (r : AluResult) : (s.bindResult r).mem = s.mem := rfl
@[simp] theorem bindResult_trace (s : State) (r : AluResult) : (s.bindResult r).trace = s.trace := rfl
@[simp] theorem bindResult_aluIn (s : State) (r : AluResult) : (s.bindResult r).aluIn = s.aluIn := rfl
@[simp] theorem bindResult_aluOut (s : State) (r : AluResult) : (s.bindResult r).aluOut = s.aluOut := rfl
@[simp] theorem bindResult_program (s : State) (r : AluResult) : (s.bindResult r).program = s.program := rfl

end Sys2Proof.Machine.State
end

