-- ==== Sys2Proof/Laws/Ops.lean ====
section
/-! SUPPORT. For each shared operation one lemma that says everything it can do; later proofs cite these and do not unfold
the operations. -/

namespace Sys2Proof.Machine

/-- The one way `memRead` answers. -/
theorem memRead_ok {addr : Addr} {s s' : State} {b : Byte} :
    memRead addr s = .ok (b, s') ↔ s.mem.read addr.toNat = some b ∧ s' = s.addCycle ⟨addr, b, .read⟩ := by
  unfold memRead
  cases s.mem.read addr.toNat with
  | none => simp
  | some w =>
    simp only [Except.ok.injEq, Prod.mk.injEq, Option.some.injEq]
    constructor
    · rintro ⟨rfl, rfl⟩; exact ⟨rfl, rfl⟩
    · rintro ⟨rfl, rfl⟩; exact ⟨rfl, rfl⟩

/-- The one way `memRead` is refused. -/
theorem memRead_error {addr : Addr} {s : State} {r : Refusal} :
    memRead addr s = .error r ↔ s.mem.read addr.toNat = none ∧ r = .unmappedRead addr := by
  unfold memRead
  cases s.mem.read addr.toNat with
  | none => simp [eq_comm]
  | some w => simp

/-- The one way `fetchByte` answers. -/
theorem fetchByte_ok {s s' : State} {b : Byte} :
    fetchByte s = .ok (b, s') ↔
      s.mem.read s.PC.toNat = some b ∧ s' = (s.addCycle ⟨s.PC, b, .read⟩).setPC (s.PC + 1#16) := by
  unfold fetchByte
  cases h : memRead s.PC s with
  | error r => simp [(memRead_error.1 h).1]
  | ok p =>
    obtain ⟨w, s1⟩ := p
    obtain ⟨hr, rfl⟩ := memRead_ok.1 h
    simp only [Except.ok.injEq, Prod.mk.injEq, hr, Option.some.injEq, State.addCycle_PC]
    constructor
    · rintro ⟨rfl, rfl⟩; exact ⟨rfl, rfl⟩
    · rintro ⟨rfl, rfl⟩; exact ⟨rfl, rfl⟩

/-- The one way `fetchByte` is refused. -/
theorem fetchByte_error {s : State} {r : Refusal} :
    fetchByte s = .error r ↔ s.mem.read s.PC.toNat = none ∧ r = .unmappedRead s.PC := by
  unfold fetchByte
  cases h : memRead s.PC s with
  | error r' => simp [(memRead_error.1 h).1, (memRead_error.1 h).2, eq_comm]
  | ok p => simp [(memRead_ok.1 h).1]

/-- The Read cycles of the fetch of R122. -/
def absReads (pc : Addr) (opcode : Byte) (base : Base) : List BusCycle :=
  [⟨pc, opcode, .read⟩, ⟨pc + 1#16, base.lo, .read⟩, ⟨pc + 1#16 + 1#16, base.hi, .read⟩]

/-- The Read cycles of the fetch of R123. -/
def zpyReads (pc : Addr) (opcode zp : Byte) (base : Base) : List BusCycle :=
  [⟨pc, opcode, .read⟩, ⟨pc + 1#16, zp, .read⟩, ⟨pageZero zp, base.lo, .read⟩, ⟨pageZero (zp + 1#8), base.hi, .read⟩]

/-- The one way `fetchAbs` answers. -/
theorem fetchAbs_ok {s s' : State} {base : Base} :
    fetchAbs s = .ok (base, s') ↔
      ∃ opcode, s.mem.read s.PC.toNat = some opcode ∧ s.mem.read (s.PC + 1#16).toNat = some base.lo ∧
        s.mem.read (s.PC + 1#16 + 1#16).toNat = some base.hi ∧
        s' = (s.setPC (s.PC + 1#16 + 1#16 + 1#16)).setTrace (s.trace ++ absReads s.PC opcode base) := by
  unfold fetchAbs
  constructor
  · intro h
    split at h
    · cases h
    · rename_i o s1 h1
      split at h
      · cases h
      · rename_i l s2 h2
        split at h
        · cases h
        · rename_i b s3 h3
          obtain ⟨r1, rfl⟩ := fetchByte_ok.1 h1
          obtain ⟨r2, rfl⟩ := fetchByte_ok.1 h2
          obtain ⟨r3, rfl⟩ := fetchByte_ok.1 h3
          cases h
          exact ⟨o, r1, r2, r3, by simp [State.addCycle, State.setPC, State.setTrace, absReads]⟩
  · rintro ⟨o, r1, r2, r3, rfl⟩
    rw [fetchByte_ok.2 ⟨r1, rfl⟩]
    simp only
    rw [fetchByte_ok.2 ⟨by simpa using r2, rfl⟩]
    simp only
    rw [fetchByte_ok.2 ⟨by simpa using r3, rfl⟩]
    simp [State.addCycle, State.setPC, State.setTrace, absReads]

/-- The one way `fetchAbs` is refused. -/
theorem fetchAbs_error {s : State} {r : Refusal} (h : fetchAbs s = .error r) :
    ∃ a : Addr, r = .unmappedRead a ∧ s.mem.read a.toNat = none := by
  unfold fetchAbs at h
  split at h
  · rename_i h1; obtain ⟨n, rfl⟩ := fetchByte_error.1 h1; cases h; exact ⟨_, rfl, n⟩
  · rename_i o s1 h1
    obtain ⟨-, rfl⟩ := fetchByte_ok.1 h1
    split at h
    · rename_i h2; obtain ⟨n, rfl⟩ := fetchByte_error.1 h2; cases h; exact ⟨_, rfl, by simpa using n⟩
    · rename_i l s2 h2
      obtain ⟨-, rfl⟩ := fetchByte_ok.1 h2
      split at h
      · rename_i h3; obtain ⟨n, rfl⟩ := fetchByte_error.1 h3; cases h; exact ⟨_, rfl, by simpa using n⟩
      · cases h

/-- The one way `fetchZpy` answers. -/
theorem fetchZpy_ok {s s' : State} {base : Base} :
    fetchZpy s = .ok (base, s') ↔
      ∃ opcode zp, s.mem.read s.PC.toNat = some opcode ∧ s.mem.read (s.PC + 1#16).toNat = some zp ∧
        s.mem.read (pageZero zp).toNat = some base.lo ∧ s.mem.read (pageZero (zp + 1#8)).toNat = some base.hi ∧
        s' = (s.setPC (s.PC + 1#16 + 1#16)).setTrace (s.trace ++ zpyReads s.PC opcode zp base) := by
  unfold fetchZpy
  constructor
  · intro h
    split at h
    · cases h
    · rename_i o s1 h1
      split at h
      · cases h
      · rename_i z s2 h2
        split at h
        · cases h
        · rename_i l s3 h3
          split at h
          · cases h
          · rename_i b s4 h4
            obtain ⟨r1, rfl⟩ := fetchByte_ok.1 h1
            obtain ⟨r2, rfl⟩ := fetchByte_ok.1 h2
            obtain ⟨r3, rfl⟩ := memRead_ok.1 h3
            obtain ⟨r4, rfl⟩ := memRead_ok.1 h4
            cases h
            exact ⟨o, z, r1, r2, r3, r4, by simp [State.addCycle, State.setPC, State.setTrace, zpyReads]⟩
  · rintro ⟨o, z, r1, r2, r3, r4, rfl⟩
    rw [fetchByte_ok.2 ⟨r1, rfl⟩]
    simp only
    rw [fetchByte_ok.2 ⟨by simpa using r2, rfl⟩]
    simp only
    rw [memRead_ok.2 ⟨by simpa using r3, rfl⟩]
    simp only
    rw [memRead_ok.2 ⟨by simpa using r4, rfl⟩]
    simp [State.addCycle, State.setPC, State.setTrace, zpyReads]

/-- The one way `fetchZpy` is refused. -/
theorem fetchZpy_error {s : State} {r : Refusal} (h : fetchZpy s = .error r) :
    ∃ a : Addr, r = .unmappedRead a ∧ s.mem.read a.toNat = none := by
  unfold fetchZpy at h
  split at h
  · rename_i h1; obtain ⟨n, rfl⟩ := fetchByte_error.1 h1; cases h; exact ⟨_, rfl, n⟩
  · rename_i o s1 h1
    obtain ⟨-, rfl⟩ := fetchByte_ok.1 h1
    split at h
    · rename_i h2; obtain ⟨n, rfl⟩ := fetchByte_error.1 h2; cases h; exact ⟨_, rfl, by simpa using n⟩
    · rename_i z s2 h2
      obtain ⟨-, rfl⟩ := fetchByte_ok.1 h2
      split at h
      · rename_i h3; obtain ⟨n, rfl⟩ := memRead_error.1 h3; cases h; exact ⟨_, rfl, by simpa using n⟩
      · rename_i l s3 h3
        obtain ⟨-, rfl⟩ := memRead_ok.1 h3
        split at h
        · rename_i h4; obtain ⟨n, rfl⟩ := memRead_error.1 h4; cases h; exact ⟨_, rfl, by simpa using n⟩
        · cases h

/-- How many bytes a fetch moves PC by (R29). -/
def pcAdvance : Format → Addr
  | .aluSel => 0#16
  | .zpy => 2#16
  | .abs => 3#16

/-- What a fetch of either store format does: it reads the snapshot, moves PC, and appends its Reads. -/
theorem fetchBase_ok {format : Format} {s s' : State} {base : Base} (hf : format ≠ .aluSel)
    (h : fetchBase format s = .ok (base, s')) :
    ∃ reads : List BusCycle, reads.length = (if format = .zpy then 4 else 3) ∧
      (∀ c ∈ reads, c.direction = .read ∧ s.mem.read c.address.toNat = some c.value) ∧
      s' = (s.setPC (s.PC + pcAdvance format)).setTrace (s.trace ++ reads) := by
  cases format with
  | aluSel => exact absurd rfl hf
  | zpy =>
    obtain ⟨o, z, r1, r2, r3, r4, rfl⟩ := fetchZpy_ok.1 h
    refine ⟨zpyReads s.PC o z base, rfl, ?_, ?_⟩
    · simp only [zpyReads, List.mem_cons, List.not_mem_nil, or_false]
      rintro c (rfl | rfl | rfl | rfl)
      · exact ⟨rfl, r1⟩
      · exact ⟨rfl, r2⟩
      · exact ⟨rfl, r3⟩
      · exact ⟨rfl, r4⟩
    · simp [pcAdvance, BitVec.add_assoc]
  | abs =>
    obtain ⟨o, r1, r2, r3, rfl⟩ := fetchAbs_ok.1 h
    refine ⟨absReads s.PC o base, rfl, ?_, ?_⟩
    · simp only [absReads, List.mem_cons, List.not_mem_nil, or_false]
      rintro c (rfl | rfl | rfl)
      · exact ⟨rfl, r1⟩
      · exact ⟨rfl, r2⟩
      · exact ⟨rfl, r3⟩
    · simp [pcAdvance, BitVec.add_assoc]

/-- A fetch is refused only for an address the snapshot does not map. -/
theorem fetchBase_error {format : Format} {s : State} {r : Refusal} (h : fetchBase format s = .error r) :
    ∃ a : Addr, r = .unmappedRead a ∧ s.mem.read a.toNat = none := by
  cases format with
  | aluSel => cases h
  | zpy => exact fetchZpy_error h
  | abs => exact fetchAbs_error h

/-- The value-source combination as a number, without the state (R125). -/
def regsOf (source : ValueSource) (s : State) : Byte := (combineRegs source s).1

/-- What `combineRegs` does to the state: TAS replaces S, the others nothing (R125). -/
theorem combineRegs_state (source : ValueSource) (s : State) :
    (combineRegs source s).2 = s.setS (if source = .sFromAX then s.A &&& s.X else s.S) := by
  cases source <;> rfl

/-- The one way `storeAt` answers: a Read of `read_ea`, S for TAS, and a Write of `write_value` at `write_addr`. -/
theorem storeAt_ok {index : IndexReg} {source : ValueSource} {base : Base} {s s' : State} :
    storeAt index source base s = .ok s' ↔
      ∃ dummy, s.mem.read (readAddress base.lo base.hi (indexValue index s)).toNat = some dummy ∧
        s' = ((s.setS (if source = .sFromAX then s.A &&& s.X else s.S)).setMem
            (s.mem.write (writeAddress base.lo base.hi (indexValue index s) (regsOf source s)).toNat
              (writeValue base.hi (regsOf source s)))).setTrace
          (s.trace ++ [⟨readAddress base.lo base.hi (indexValue index s), dummy, .read⟩,
            ⟨writeAddress base.lo base.hi (indexValue index s) (regsOf source s), writeValue base.hi (regsOf source s),
              .write⟩]) := by
  unfold storeAt
  constructor
  · intro h
    split at h
    · cases h
    · rename_i d s1 h1
      obtain ⟨r, rfl⟩ := memRead_ok.1 h1
      refine ⟨d, r, ?_⟩
      cases h
      cases index <;> cases source <;>
        simp [combineRegs, regsOf, memWrite, indexValue, State.addCycle, State.setS, State.setMem, State.setTrace]
  · rintro ⟨d, r, rfl⟩
    rw [memRead_ok.2 ⟨r, rfl⟩]
    cases index <;> cases source <;>
      simp [combineRegs, regsOf, memWrite, indexValue, State.addCycle, State.setS, State.setMem, State.setTrace]

/-- The one way `storeAt` is refused. -/
theorem storeAt_error {index : IndexReg} {source : ValueSource} {base : Base} {s : State} {r : Refusal}
    (h : storeAt index source base s = .error r) : ∃ a : Addr, r = .unmappedRead a ∧ s.mem.read a.toNat = none := by
  unfold storeAt at h
  split at h
  · rename_i h1; obtain ⟨n, rfl⟩ := memRead_error.1 h1; cases h; exact ⟨_, rfl, n⟩
  · cases h

/-- The one way the store unit answers next: on NMOS6502, a fetch from an empty trace and then the store. -/
theorem storeUnit_next {format : Format} {index : IndexReg} {source : ValueSource} {s t : State} :
    storeUnit format index source s = .next t ↔
      s.variant = .nmos6502 ∧ ∃ base s1, fetchBase format (s.setTrace []) = .ok (base, s1) ∧
        storeAt index source base s1 = .ok t := by
  unfold storeUnit
  cases hv : s.variant with
  | cmos65c02 => simp [refuse]
  | nmos6502 =>
    simp only [true_and]
    cases hf : fetchBase format (s.setTrace []) with
    | error r => simp [refuse]
    | ok p =>
      obtain ⟨base, s1⟩ := p
      simp only [Except.ok.injEq, Prod.mk.injEq]
      cases hs : storeAt index source base s1 with
      | error r =>
        simp only [refuse, reduceCtorEq, false_iff, not_exists, not_and]
        rintro _ _ ⟨rfl, rfl⟩
        simp [hs]
      | ok s2 =>
        simp only [Host.Outcome.next.injEq]
        constructor
        · rintro rfl; exact ⟨base, s1, ⟨rfl, rfl⟩, hs⟩
        · rintro ⟨_, _, ⟨rfl, rfl⟩, h⟩; rw [hs] at h; cases h; rfl

/-- The store unit is refused on CMOS65C02, and else only for an address the snapshot does not map. -/
theorem storeUnit_refused {format : Format} {index : IndexReg} {source : ValueSource} {s : State} {r : Refusal}
    (hf : format ≠ .aluSel) (h : storeUnit format index source s = .refused r) :
    (s.variant = .cmos65c02 ∧ r = .storeUnitOnCMOS) ∨
      ∃ a : Addr, r = .unmappedRead a ∧ s.mem.read a.toNat = none := by
  unfold storeUnit at h
  split at h
  · rename_i hv; cases h; exact .inl ⟨hv, rfl⟩
  · right
    split at h
    · rename_i r' hb; cases h; simpa using fetchBase_error hb
    · rename_i base s1 hb
      obtain ⟨reads, -, -, rfl⟩ := fetchBase_ok hf hb
      split at h
      · rename_i r' hs; cases h; simpa using storeAt_error hs
      · cases h

/-- The store unit never faults (R150). -/
theorem storeUnit_not_fault (format : Format) (index : IndexReg) (source : ValueSource) (s : State) (f : Fault) :
    storeUnit format index source s ≠ .fault f := by
  unfold storeUnit refuse
  split
  · simp
  · split
    · simp
    · split <;> simp

/-- An ALU invocation always answers, and writes the output alone. -/
@[simp] theorem aluCompute_eq (f : Bool → Byte → Byte → AluResult) (s : State) :
    aluCompute f s = .next (s.setAluOut (f s.aluIn.initialCarry s.aluIn.accumulator s.aluIn.operand)) := rfl

end Sys2Proof.Machine
end

