-- ==== Sys2Proof/Laws/PerInstr.lean ====
section
/-! SUPPORT. Statements about every instruction as syntax, one lemma per constructor: family `Words`, that each of the
words an instruction is given by the tables (R72, R74) is decoded to it. -/

namespace Sys2Proof.Laws.Words

/-- An instruction has a selector word or an opcode byte and a class code, by its format, and each decodes to it. -/
def Statement (i : Instr) : Prop :=
  (i.isStore = false → ∃ sel, encodeSel i = some sel ∧ decodeSel sel = i) ∧
  (i.isStore = true → ∃ opcode code, encodeOpcode i = some opcode ∧ decodeOpcode opcode = .ok i ∧
    encodeClass i = some code ∧ decodeClass code = .ok i)

theorem aluAddBinNmos : Statement .aluAddBinNmos := ⟨fun _ => ⟨0b000#3, rfl, rfl⟩, by decide⟩
theorem aluAddDecNmos : Statement .aluAddDecNmos := ⟨fun _ => ⟨0b001#3, rfl, rfl⟩, by decide⟩
theorem aluSubBinNmos : Statement .aluSubBinNmos := ⟨fun _ => ⟨0b010#3, rfl, rfl⟩, by decide⟩
theorem aluSubDecNmos : Statement .aluSubDecNmos := ⟨fun _ => ⟨0b011#3, rfl, rfl⟩, by decide⟩
theorem aluAddBinCmos : Statement .aluAddBinCmos := ⟨fun _ => ⟨0b100#3, rfl, rfl⟩, by decide⟩
theorem aluAddDecCmos : Statement .aluAddDecCmos := ⟨fun _ => ⟨0b101#3, rfl, rfl⟩, by decide⟩
theorem aluSubBinCmos : Statement .aluSubBinCmos := ⟨fun _ => ⟨0b110#3, rfl, rfl⟩, by decide⟩
theorem aluSubDecCmos : Statement .aluSubDecCmos := ⟨fun _ => ⟨0b111#3, rfl, rfl⟩, by decide⟩
theorem shaZpY : Statement .shaZpY := ⟨by decide, fun _ => ⟨0x93#8, 0b000#3, rfl, rfl, rfl, rfl⟩⟩
theorem shaAbsY : Statement .shaAbsY := ⟨by decide, fun _ => ⟨0x9F#8, 0b001#3, rfl, rfl, rfl, rfl⟩⟩
theorem tasAbsY : Statement .tasAbsY := ⟨by decide, fun _ => ⟨0x9B#8, 0b010#3, rfl, rfl, rfl, rfl⟩⟩
theorem shyAbsX : Statement .shyAbsX := ⟨by decide, fun _ => ⟨0x9C#8, 0b011#3, rfl, rfl, rfl, rfl⟩⟩
theorem shxAbsY : Statement .shxAbsY := ⟨by decide, fun _ => ⟨0x9E#8, 0b100#3, rfl, rfl, rfl, rfl⟩⟩

end Sys2Proof.Laws.Words
end

