-- ==== Sys2Proof/Laws/Store.lean ====
section
/-! SUPPORT. What `exec` can do, said once for all instructions: an ALU instruction writes the output alone, a store
instruction is the store unit with the format, index register and value source of R74. -/

namespace Sys2Proof.Machine

/-- The store unit's parameters of each opcode class, the columns of R74. -/
def storeForm : Instr → Option (Format × IndexReg × ValueSource)
  | .aluAddBinNmos => none
  | .aluAddDecNmos => none
  | .aluSubBinNmos => none
  | .aluSubDecNmos => none
  | .aluAddBinCmos => none
  | .aluAddDecCmos => none
  | .aluSubBinCmos => none
  | .aluSubDecCmos => none
  | .shaZpY => some (.zpy, .y, .aAndX)
  | .shaAbsY => some (.abs, .y, .aAndX)
  | .tasAbsY => some (.abs, .y, .sFromAX)
  | .shyAbsX => some (.abs, .x, .y)
  | .shxAbsY => some (.abs, .y, .x)

/-- A store instruction is the shared algorithm with its parameters. -/
theorem exec_store {i : Instr} {format : Format} {index : IndexReg} {source : ValueSource}
    (h : storeForm i = some (format, index, source)) (s : State) : exec i s = storeUnit format index source s := by
  cases i <;> simp only [storeForm, Option.some.injEq, Prod.mk.injEq, reduceCtorEq] at h <;>
    obtain ⟨rfl, rfl, rfl⟩ := h <;> rfl

/-- The format of a store instruction is a store format. -/
theorem storeForm_format {i : Instr} {format : Format} {index : IndexReg} {source : ValueSource}
    (h : storeForm i = some (format, index, source)) : format ≠ .aluSel ∧ i.format = format := by
  cases i <;> simp only [storeForm, Option.some.injEq, Prod.mk.injEq, reduceCtorEq] at h <;>
    obtain ⟨rfl, rfl, rfl⟩ := h <;> exact ⟨by decide, rfl⟩

/-- An ALU instruction answers with its result in the output and everything else as it was. -/
theorem exec_alu {i : Instr} (h : storeForm i = none) (s : State) : ∃ r, exec i s = .next (s.setAluOut r) := by
  cases i <;> simp only [storeForm, reduceCtorEq] at h <;> exact ⟨_, rfl⟩

/-- What a store instruction that answers next has done (R120 to R128, R136). -/
theorem storeUnit_effect {format : Format} {index : IndexReg} {source : ValueSource} {s t : State}
    (hf : format ≠ .aluSel) (h : storeUnit format index source s = .next t) :
    ∃ (base : Base) (fetched : State) (reads : List BusCycle) (dummy : Byte),
      let regs := regsOf source s
      let readEa := readAddress base.lo base.hi (indexValue index s)
      let addr := writeAddress base.lo base.hi (indexValue index s) regs
      s.variant = .nmos6502 ∧ fetchBase format (s.setTrace []) = .ok (base, fetched) ∧
      reads.length = (if format = .zpy then 4 else 3) ∧
      (∀ c ∈ reads, c.direction = .read ∧ s.mem.read c.address.toNat = some c.value) ∧
      s.mem.read readEa.toNat = some dummy ∧
      t = (((s.setPC (s.PC + pcAdvance format)).setS (if source = .sFromAX then s.A &&& s.X else s.S)).setMem
            (s.mem.write addr.toNat (writeValue base.hi regs))).setTrace
          (reads ++ [⟨readEa, dummy, .read⟩, ⟨addr, writeValue base.hi regs, .write⟩]) := by
  obtain ⟨hv, base, s1, hb, hs⟩ := storeUnit_next.1 h
  obtain ⟨reads, hl, hr, rfl⟩ := fetchBase_ok hf hb
  obtain ⟨dummy, hd, rfl⟩ := storeAt_ok.1 hs
  refine ⟨base, _, reads, dummy, hv, hb, hl, hr, ?_, ?_⟩
  · cases index <;> exact hd
  · cases index <;> cases source <;> rfl

/-- The outcomes of `exec`: a next state or a refusal (R150). -/
theorem exec_next_or_refused (i : Instr) (s : State) : (∃ t, exec i s = .next t) ∨ ∃ r, exec i s = .refused r := by
  cases h : storeForm i with
  | none => obtain ⟨r, hr⟩ := exec_alu h s; exact .inl ⟨_, hr⟩
  | some p =>
    obtain ⟨format, index, source⟩ := p
    rw [exec_store h]
    cases ho : storeUnit format index source s with
    | next t => exact .inl ⟨t, rfl⟩
    | refused r => exact .inr ⟨r, rfl⟩
    | fault f => exact absurd ho (storeUnit_not_fault _ _ _ _ _)

end Sys2Proof.Machine
end

