-- ==== Sys2Proof/Laws/Step.lean ====
section
/-! SUPPORT. The decoders' small lemmas, and what selecting, retiring and performing an invocation can do. -/

namespace Sys2Proof

/-- A class code either names an opcode class, which is a store instruction, or is one of the three of R77. -/
theorem decodeClass_cases (code : BitVec 3) :
    (code.toNat ≤ 4 ∧ ∃ i, decodeClass code = .ok i ∧ Machine.storeForm i ≠ none) ∨
      (5 ≤ code.toNat ∧ decodeClass code = .error (.unknownOpcodeClass code)) := by
  unfold decodeClass
  split_ifs with h0 h1 h2 h3 h4
  · subst h0; exact .inl ⟨by decide, _, rfl, by decide⟩
  · subst h1; exact .inl ⟨by decide, _, rfl, by decide⟩
  · subst h2; exact .inl ⟨by decide, _, rfl, by decide⟩
  · subst h3; exact .inl ⟨by decide, _, rfl, by decide⟩
  · subst h4; exact .inl ⟨by decide, _, rfl, by decide⟩
  · refine .inr ⟨?_, rfl⟩
    have := code.isLt
    simp only [← BitVec.toNat_inj, BitVec.toNat_ofNat] at h0 h1 h2 h3 h4
    omega

/-- An opcode byte either is one of the five of R74, and names a store instruction, or is outside the block (R77). -/
theorem decodeOpcode_cases (opcode : Byte) :
    (opcode ∈ [0x93#8, 0x9F#8, 0x9B#8, 0x9C#8, 0x9E#8] ∧
        ∃ i, decodeOpcode opcode = .ok i ∧ Machine.storeForm i ≠ none ∧ encodeOpcode i = some opcode) ∨
      (opcode ∉ [0x93#8, 0x9F#8, 0x9B#8, 0x9C#8, 0x9E#8] ∧
        decodeOpcode opcode = .error (.opcodeOutsideBlock opcode)) := by
  unfold decodeOpcode
  split_ifs with h0 h1 h2 h3 h4
  · subst h0; exact .inl ⟨by decide, _, rfl, by decide, rfl⟩
  · subst h1; exact .inl ⟨by decide, _, rfl, by decide, rfl⟩
  · subst h2; exact .inl ⟨by decide, _, rfl, by decide, rfl⟩
  · subst h3; exact .inl ⟨by decide, _, rfl, by decide, rfl⟩
  · subst h4; exact .inl ⟨by decide, _, rfl, by decide, rfl⟩
  · exact .inr ⟨by simp [h0, h1, h2, h3, h4], rfl⟩

/-- The selector of an ALU invocation decodes to an ALU instruction (R72). -/
theorem decodeSel_alu (sel : BitVec 3) : Machine.storeForm (decodeSel sel) = none := by
  unfold decodeSel
  split <;> rfl

namespace Machine

/-- What `select` hands to `exec`: for the two ALU forms an ALU instruction and a new input, for the two store-unit forms
a store instruction and the state as it is. -/
theorem select_ok {inv : Invocation} {s s1 : State} {i : Instr} (h : select inv s = .ok (i, s1)) :
    (((∃ v o x, inv = .compute v o x) ∨ ∃ o b, inv = .bound o b) ∧ storeForm i = none ∧ ∃ x, s1 = s.setAluIn x) ∨
      (((∃ code, inv = .execute code) ∨ inv = .dispatch) ∧ storeForm i ≠ none ∧ s1 = s) := by
  cases inv with
  | compute v o x => cases h; exact .inl ⟨.inl ⟨v, o, x, rfl⟩, decodeSel_alu _, _, rfl⟩
  | bound o b => cases h; exact .inl ⟨.inr ⟨o, b, rfl⟩, decodeSel_alu _, _, rfl⟩
  | execute code =>
    refine .inr ⟨.inl ⟨code, rfl⟩, ?_⟩
    simp only [select] at h
    split at h
    · cases h
    · rcases decodeClass_cases code with ⟨-, j, hj, hn⟩ | ⟨-, hj⟩
      · rw [hj] at h; cases h; exact ⟨hn, rfl⟩
      · rw [hj] at h; cases h
  | dispatch =>
    refine .inr ⟨.inr rfl, ?_⟩
    simp only [select] at h
    split at h
    · cases h
    · rename_i opcode _
      rcases decodeOpcode_cases opcode with ⟨-, j, hj, hn, -⟩ | ⟨-, hj⟩
      · rw [hj] at h; cases h; exact ⟨hn, rfl⟩
      · rw [hj] at h; cases h

/-- The one way an invocation answers next. -/
theorem invoke_next {inv : Invocation} {s t : State} :
    invoke inv s = .next t ↔ ∃ i s1 s2, select inv s = .ok (i, s1) ∧ exec i s1 = .next s2 ∧ t = retire inv s2 := by
  unfold invoke
  cases hs : select inv s with
  | error r => simp [refuse]
  | ok p =>
    obtain ⟨i, s1⟩ := p
    simp only [Except.ok.injEq, Prod.mk.injEq]
    cases he : exec i s1 with
    | next s2 =>
      simp only [Host.Outcome.next.injEq]
      constructor
      · rintro rfl; exact ⟨i, s1, s2, ⟨rfl, rfl⟩, he, rfl⟩
      · rintro ⟨_, _, s2', ⟨rfl, rfl⟩, h, rfl⟩; rw [he] at h; cases h; rfl
    | fault f => simp only [reduceCtorEq, false_iff]; rintro ⟨_, _, _, ⟨rfl, rfl⟩, h, -⟩; rw [he] at h; cases h
    | refused r => simp only [reduceCtorEq, false_iff]; rintro ⟨_, _, _, ⟨rfl, rfl⟩, h, -⟩; rw [he] at h; cases h

/-- An invocation never faults. -/
theorem invoke_not_fault (inv : Invocation) (s : State) (f : Fault) : invoke inv s ≠ .fault f := by
  unfold invoke
  cases select inv s with
  | error r => simp [refuse]
  | ok p =>
    simp only
    rcases exec_next_or_refused p.1 p.2 with ⟨t, h⟩ | ⟨r, h⟩ <;> rw [h] <;> simp

/-- A step that answers next performs the first invocation of the list. -/
theorem step_next {s t : State} :
    step s = .next t ↔ ∃ inv rest, s.program = inv :: rest ∧ invoke inv (s.setProgram rest) = .next t := by
  unfold step
  cases hp : s.program with
  | nil => simp
  | cons inv rest =>
    simp only [List.cons.injEq]
    constructor
    · intro h; exact ⟨inv, rest, ⟨rfl, rfl⟩, h⟩
    · rintro ⟨_, _, ⟨rfl, rfl⟩, h⟩; exact h

/-- The step of a state whose list is known. -/
theorem step_cons {s : State} {inv : Invocation} {rest : List Invocation} (h : s.program = inv :: rest) :
    step s = invoke inv (s.setProgram rest) := by
  simp [step, h]

end Machine

end Sys2Proof
end

