-- ==== Sys2Proof/Tests/Slice0.lean ====
section
/-! SUPPORT. Tests of the model's own: the ill-formed terms WellFormed refuses, words written out from 30_encoding, the
vectors of 95_test_vectors (named in each comment; expected values are the spec's), and, for every obligation with
hypotheses, a theorem `witness_<obligation>` that meets them. -/

namespace Sys2Proof.Tests

open Sys2Proof.Machine Sys2Proof.Spec

/-- The next state of an outcome, if it is one. -/
def nextState (o : Host.Outcome State Fault Refusal) : Option State :=
  match o with
  | .next t => some t
  | .fault _ => none
  | .refused _ => none

/-- The refusal of an outcome, if it is one. -/
def refusal (o : Host.Outcome State Fault Refusal) : Option Refusal :=
  match o with
  | .next _ => none
  | .fault _ => none
  | .refused r => some r

/-- A state whose ALU input is `c a m`. -/
def aluState (c : Bool) (a m : Byte) : State := State.reset.setAluIn ⟨c, a, m, false⟩

/-- `c a m -> r N V Z C` of an ALU instruction. -/
def aluRun (i : Instr) (c : Bool) (a m : Byte) : Option AluResult := (nextState (exec i (aluState c a m))).map (·.aluOut)

/-- A start state of the store-unit vectors: `S = FD`, memory as listed. -/
def storeState (pc : Addr) (a x y : Byte) (mem : Memory) : State :=
  { State.reset with PC := pc, A := a, X := x, Y := y, S := 0xFD#8, mem := mem }

/-- PC, S and the trace after a store instruction. -/
def storeRun (i : Instr) (s : State) : Option (Addr × Byte × List BusCycle) :=
  (nextState (exec i s)).map fun t => (t.PC, t.S, t.trace)

/-! ### Well-formedness -/

theorem test_wf_operand_count_refused : (⟨.shaZpY, [0x40#8, 0x41#8]⟩ : Coded).wellFormed = false := by decide
theorem test_wf_missing_operand_refused : (⟨.shxAbsY, [0x40#8]⟩ : Coded).wellFormed = false := by decide
theorem test_wf_class_code_refused : (Invocation.execute 0b101#3).wellFormed = false := by decide
theorem test_wf_accepts : (⟨.shxAbsY, [0xF9#8, 0x04#8]⟩ : Coded).wellFormed = true ∧
    (⟨.aluAddBinNmos, []⟩ : Coded).wellFormed = true ∧ (Invocation.execute 0b100#3).wellFormed = true := by decide

/-! ### Decoding: the words of R72 and R74, bit by bit -/

theorem test_decode_add_bin_nmos : decodeSel 0b000#3 = .aluAddBinNmos := by decide
theorem test_decode_add_dec_nmos : decodeSel 0b001#3 = .aluAddDecNmos := by decide
theorem test_decode_sub_bin_nmos : decodeSel 0b010#3 = .aluSubBinNmos := by decide
theorem test_decode_sub_dec_nmos : decodeSel 0b011#3 = .aluSubDecNmos := by decide
theorem test_decode_add_bin_cmos : decodeSel 0b100#3 = .aluAddBinCmos := by decide
theorem test_decode_add_dec_cmos : decodeSel 0b101#3 = .aluAddDecCmos := by decide
theorem test_decode_sub_bin_cmos : decodeSel 0b110#3 = .aluSubBinCmos := by decide
theorem test_decode_sub_dec_cmos : decodeSel 0b111#3 = .aluSubDecCmos := by decide
theorem test_decode_sha_zpy : decodeStream [0b10010011#8, 0x80#8] = .ok ⟨⟨.shaZpY, [0x80#8]⟩, []⟩ := by rfl
theorem test_decode_sha_abs : decodeStream [0b10011111#8, 0xC0#8, 0x30#8] = .ok ⟨⟨.shaAbsY, [0xC0#8, 0x30#8]⟩, []⟩ := by rfl
theorem test_decode_tas : decodeStream [0b10011011#8, 0x00#8, 0x05#8] = .ok ⟨⟨.tasAbsY, [0x00#8, 0x05#8]⟩, []⟩ := by rfl
theorem test_decode_shy : decodeStream [0b10011100#8, 0xF0#8, 0x0F#8] = .ok ⟨⟨.shyAbsX, [0xF0#8, 0x0F#8]⟩, []⟩ := by rfl
theorem test_decode_shx : decodeStream [0b10011110#8, 0xF9#8, 0x04#8, 0x9B#8] =
    .ok ⟨⟨.shxAbsY, [0xF9#8, 0x04#8]⟩, [0x9B#8]⟩ := by rfl
theorem test_decode_rejects : decodeStream [] = .error .emptyStream ∧ decodeStream [0x93#8] = .error (.truncated .shaZpY) ∧
    decodeStream [0x69#8, 0x01#8] = .error (.opcodeOutsideBlock 0x69#8) ∧
    decodeClass 0b101#3 = .error (.unknownOpcodeClass 0b101#3) := ⟨rfl, rfl, rfl, rfl⟩

/-- The numbers of the opcode table. -/
def tableWords : List Nat := [0, 1, 2, 3, 4, 5, 6, 7, 0x93, 0x9F, 0x9B, 0x9C, 0x9E]

theorem test_table_words_decode : tableWords.map (decodeTableWord 8) = (aluInstrs ++ storeInstrs).map some := by decide
theorem test_table_words_run : (tableWords.all fun w => (nextState (step (State.reset.withFetchWord 8 w))).isSome) = true := by
  decide
theorem test_direction_bits : directionBit .read = true ∧ directionBit .write = false := by decide

/-! ### Decimal ALU (95_test_vectors 2.1 to 2.4) -/

/-- BA4 -/
theorem test_add_bin_nmos_zero : aluRun .aluAddBinNmos false 0x80#8 0x80#8 = some ⟨0x00#8, false, true, true, true⟩ := by decide
/-- BA8 -/
theorem test_add_bin_nmos_carry_in : aluRun .aluAddBinNmos true 0x3F#8 0x40#8 = some ⟨0x80#8, true, true, false, false⟩ := by decide
/-- BA5 -/
theorem test_add_bin_cmos_largest : aluRun .aluAddBinCmos true 0xFF#8 0xFF#8 = some ⟨0xFF#8, true, false, false, true⟩ := by decide
/-- BA7 -/
theorem test_add_bin_cmos_carry : aluRun .aluAddBinCmos false 0x50#8 0xD0#8 = some ⟨0x20#8, false, false, false, true⟩ := by decide
/-- BS6 -/
theorem test_sub_bin_nmos_wrap : aluRun .aluSubBinNmos false 0x00#8 0xFF#8 = some ⟨0x00#8, false, false, true, false⟩ := by decide
/-- BS9 -/
theorem test_sub_bin_nmos_borrow : aluRun .aluSubBinNmos false 0x80#8 0x00#8 = some ⟨0x7F#8, false, true, false, true⟩ := by decide
/-- BS4 -/
theorem test_sub_bin_cmos_overflow : aluRun .aluSubBinCmos true 0x50#8 0xB0#8 = some ⟨0xA0#8, true, true, false, false⟩ := by decide
/-- BS10 -/
theorem test_sub_bin_cmos_equal : aluRun .aluSubBinCmos true 0x05#8 0x05#8 = some ⟨0x00#8, false, false, true, true⟩ := by decide
/-- DA3 -/
theorem test_add_dec_nmos_zero_flag : aluRun .aluAddDecNmos false 0x80#8 0x80#8 = some ⟨0x60#8, false, true, true, true⟩ := by decide
/-- DA18 -/
theorem test_add_dec_nmos_invalid : aluRun .aluAddDecNmos false 0xFF#8 0xFF#8 = some ⟨0x54#8, true, false, false, true⟩ := by decide
/-- DA5 -/
theorem test_add_dec_cmos_negative : aluRun .aluAddDecCmos true 0x99#8 0x99#8 = some ⟨0x99#8, true, true, false, true⟩ := by decide
/-- DA2 -/
theorem test_add_dec_cmos_zero : aluRun .aluAddDecCmos false 0x99#8 0x01#8 = some ⟨0x00#8, false, false, true, true⟩ := by decide
/-- DS9 -/
theorem test_sub_dec_nmos_c3 : aluRun .aluSubDecNmos false 0x00#8 0xFF#8 = some ⟨0xAA#8, false, false, true, false⟩ := by decide
/-- DS15 -/
theorem test_sub_dec_nmos_invalid : aluRun .aluSubDecNmos true 0x00#8 0x0F#8 = some ⟨0x9B#8, true, false, false, false⟩ := by decide
/-- R112: no vector; the result is the parameter. -/
theorem test_sub_dec_cmos_completes (c : Bool) (a m : Byte) :
    aluRun .aluSubDecCmos c a m = some (Config.cmosSbcDec c a m) := rfl

/-! ### Unstable-Store Address Unit (95_test_vectors 2.6) -/

def stateS2 : State := storeState 0x0200#16 0xF5#8 0x3C#8 0x20#8
  [(0x0040, 0xF0#8), (0x0041, 0x12#8), (0x0200, 0x93#8), (0x0201, 0x40#8), (0x1210, 0x77#8)]

def stateS4 : State := storeState 0x0200#16 0xFF#8 0x0F#8 0x00#8
  [(0x0000, 0x56#8), (0x00FF, 0x34#8), (0x0200, 0x93#8), (0x0201, 0xFF#8), (0x5634, 0xAA#8)]

def stateS6 : State := storeState 0x0200#16 0x6E#8 0xB7#8 0x80#8
  [(0x0200, 0x9F#8), (0x0201, 0xC0#8), (0x0202, 0x30#8), (0x3040, 0xEE#8)]

def stateS7 : State := storeState 0x0200#16 0xFF#8 0xFF#8 0x02#8
  [(0x0200, 0x9F#8), (0x0201, 0xFF#8), (0x0202, 0xFF#8), (0xFF01, 0x11#8)]

def stateS8 : State := storeState 0x0200#16 0xCC#8 0xAA#8 0x01#8
  [(0x0200, 0x9B#8), (0x0201, 0x10#8), (0x0202, 0x20#8), (0x2011, 0x00#8)]

def stateS9 : State := storeState 0x0200#16 0xCC#8 0xAA#8 0xF1#8
  [(0x0200, 0x9B#8), (0x0201, 0x10#8), (0x0202, 0x20#8), (0x2001, 0x99#8)]

def stateS10 : State := storeState 0x0200#16 0x00#8 0x05#8 0xFF#8
  [(0x0200, 0x9C#8), (0x0201, 0x00#8), (0x0202, 0x44#8), (0x4405, 0x01#8)]

def stateS11 : State := storeState 0x0200#16 0x00#8 0x05#8 0x0F#8
  [(0x0200, 0x9C#8), (0x0201, 0xFE#8), (0x0202, 0x44#8), (0x4403, 0x01#8)]

def stateS14 : State := storeState 0xFFFE#16 0x00#8 0xFF#8 0x00#8
  [(0x0000, 0x02#8), (0x0210, 0xAB#8), (0xFFFE, 0x9E#8), (0xFFFF, 0x10#8)]

def stateS16 : State := storeState 0x0200#16 0x00#8 0xFF#8 0x01#8 [(0x0200, 0x9E#8), (0x0201, 0x00#8), (0x0202, 0x02#8)]

/-- SHX at 9200 with base 9203, index 0 and X = FF writes h1 = 93 at 9203, where the next invocation decodes. -/
def statePatch : State := { storeState 0x9200#16 0x00#8 0xFF#8 0x00#8
  [(0x9200, 0x9E#8), (0x9201, 0x03#8), (0x9202, 0x92#8), (0x9203, 0x00#8)] with program := [.dispatch] }

theorem test_sha_zpy_S2 : storeRun .shaZpY stateS2 = some (0x0202#16, 0xFD#8,
    [⟨0x0200#16, 0x93#8, .read⟩, ⟨0x0201#16, 0x40#8, .read⟩, ⟨0x0040#16, 0xF0#8, .read⟩, ⟨0x0041#16, 0x12#8, .read⟩,
     ⟨0x1210#16, 0x77#8, .read⟩, ⟨0x1010#16, 0x10#8, .write⟩]) := by decide
theorem test_sha_zpy_S4 : storeRun .shaZpY stateS4 = some (0x0202#16, 0xFD#8,
    [⟨0x0200#16, 0x93#8, .read⟩, ⟨0x0201#16, 0xFF#8, .read⟩, ⟨0x00FF#16, 0x34#8, .read⟩, ⟨0x0000#16, 0x56#8, .read⟩,
     ⟨0x5634#16, 0xAA#8, .read⟩, ⟨0x5634#16, 0x07#8, .write⟩]) := by decide
theorem test_sha_abs_S6 : storeRun .shaAbsY stateS6 = some (0x0203#16, 0xFD#8,
    [⟨0x0200#16, 0x9F#8, .read⟩, ⟨0x0201#16, 0xC0#8, .read⟩, ⟨0x0202#16, 0x30#8, .read⟩, ⟨0x3040#16, 0xEE#8, .read⟩,
     ⟨0x2040#16, 0x20#8, .write⟩]) := by decide
theorem test_sha_abs_S7 : storeRun .shaAbsY stateS7 = some (0x0203#16, 0xFD#8,
    [⟨0x0200#16, 0x9F#8, .read⟩, ⟨0x0201#16, 0xFF#8, .read⟩, ⟨0x0202#16, 0xFF#8, .read⟩, ⟨0xFF01#16, 0x11#8, .read⟩,
     ⟨0x0001#16, 0x00#8, .write⟩]) := by decide
theorem test_tas_S8 : storeRun .tasAbsY stateS8 = some (0x0203#16, 0x88#8,
    [⟨0x0200#16, 0x9B#8, .read⟩, ⟨0x0201#16, 0x10#8, .read⟩, ⟨0x0202#16, 0x20#8, .read⟩, ⟨0x2011#16, 0x00#8, .read⟩,
     ⟨0x2011#16, 0x00#8, .write⟩]) := by decide
theorem test_tas_S9 : storeRun .tasAbsY stateS9 = some (0x0203#16, 0x88#8,
    [⟨0x0200#16, 0x9B#8, .read⟩, ⟨0x0201#16, 0x10#8, .read⟩, ⟨0x0202#16, 0x20#8, .read⟩, ⟨0x2001#16, 0x99#8, .read⟩,
     ⟨0x0001#16, 0x00#8, .write⟩]) := by decide
theorem test_shy_S10 : storeRun .shyAbsX stateS10 = some (0x0203#16, 0xFD#8,
    [⟨0x0200#16, 0x9C#8, .read⟩, ⟨0x0201#16, 0x00#8, .read⟩, ⟨0x0202#16, 0x44#8, .read⟩, ⟨0x4405#16, 0x01#8, .read⟩,
     ⟨0x4405#16, 0x45#8, .write⟩]) := by decide
theorem test_shy_S11 : storeRun .shyAbsX stateS11 = some (0x0203#16, 0xFD#8,
    [⟨0x0200#16, 0x9C#8, .read⟩, ⟨0x0201#16, 0xFE#8, .read⟩, ⟨0x0202#16, 0x44#8, .read⟩, ⟨0x4403#16, 0x01#8, .read⟩,
     ⟨0x0503#16, 0x05#8, .write⟩]) := by decide
theorem test_shx_S14 : storeRun .shxAbsY stateS14 = some (0x0001#16, 0xFD#8,
    [⟨0xFFFE#16, 0x9E#8, .read⟩, ⟨0xFFFF#16, 0x10#8, .read⟩, ⟨0x0000#16, 0x02#8, .read⟩, ⟨0x0210#16, 0xAB#8, .read⟩,
     ⟨0x0210#16, 0x03#8, .write⟩]) := by decide
theorem test_shx_S16 : (nextState (exec .shxAbsY stateS16)).map (fun t => (t.mem.read 0x0201, t.trace)) = some (some 0x03#8,
    [⟨0x0200#16, 0x9E#8, .read⟩, ⟨0x0201#16, 0x00#8, .read⟩, ⟨0x0202#16, 0x02#8, .read⟩, ⟨0x0201#16, 0x00#8, .read⟩,
     ⟨0x0201#16, 0x03#8, .write⟩]) := by decide

/-! ### Refusals and the two ends of an invocation -/

/-- R121. -/
theorem test_store_refused_on_cmos : refusal (exec .shaAbsY { stateS6 with variant := .cmos65c02 }) = some .storeUnitOnCMOS := by
  decide
/-- R56: the dummy read's address is not mapped. -/
theorem test_unmapped_read : refusal (exec .shaAbsY { stateS6 with Y := 0x81#8 }) = some (.unmappedRead 0x3041#16) := by decide
/-- R26 on P2 step 2 (95_test_vectors): `SBC #$00` with `A = 10`, `C = 0`, `D = 1` on NMOS6502. -/
theorem test_bound_sbc : (nextState (step { State.reset with A := 0x10#8, D := true, program := [.bound .subtract 0x00#8] })).map
    (fun t => (t.A, t.N, t.V, t.D, t.Z, t.C)) = some (0x09#8, false, false, true, false, true) := by decide
/-- R76: SHX by the opcode byte at PC, the vector S14. -/
theorem test_dispatch_S14 : (nextState (step { stateS14 with program := [.dispatch] })).map (·.PC) = some 0x0001#16 := by decide
/-- R76: the class is an argument, the opcode byte in memory (9F) is not checked: TAS on the memory of S6. -/
theorem test_execute_ignores_opcode : (nextState (step { stateS6 with program := [.execute 0b010#3] })).map (·.S) =
    some 0x26#8 := by decide

/-! ### Witnesses: for each obligation with hypotheses, a state and operands that meet them -/

theorem witness_DecodeAndEncodeAgree : (⟨.shaZpY, [0xFF#8]⟩ : Coded).wellFormed = true ∧
    (⟨.aluSubDecCmos, []⟩ : Coded).wellFormed = true ∧
    decode (.stream [0x9E#8, 0x00#8, 0xFF#8, 0x93#8]) = .ok ⟨⟨.shxAbsY, [0x00#8, 0xFF#8]⟩, [0x93#8]⟩ := ⟨rfl, rfl, rfl⟩

/-- One state for each of the four clauses. -/
theorem witness_StepRunsTheSelectedInstruction :
    ({ State.reset with program := [.compute .cmos65c02 .subtract ⟨true, 0xFF#8, 0x00#8, true⟩] } : State).program =
      .compute .cmos65c02 .subtract ⟨true, 0xFF#8, 0x00#8, true⟩ :: [] ∧
    (({ State.reset with D := true, program := [.bound .add 0xFF#8] } : State).program = .bound .add 0xFF#8 :: [] ∧
      ∃ t, exec (decodeSel (selWord .nmos6502 .add true))
        { State.reset with D := true, program := [], aluIn := ⟨false, 0x00#8, 0xFF#8, true⟩ } = .next t) ∧
    (({ stateS6 with program := [.execute 0b100#3] } : State).program = .execute 0b100#3 :: [] ∧
      stateS6.variant = .nmos6502 ∧ decodeClass 0b100#3 = .ok .shxAbsY) ∧
    (statePatch.program = .dispatch :: [] ∧ statePatch.mem.read statePatch.PC.toNat = some 0x9E#8 ∧
      decodeOpcode 0x9E#8 = .ok .shxAbsY) :=
  ⟨rfl, ⟨rfl, _, rfl⟩, ⟨rfl, rfl, rfl⟩, ⟨rfl, rfl, rfl⟩⟩

theorem witness_UnknownClassCodesRefused :
    refusal (step { stateS6 with program := [.execute 0b101#3] }) = some (.unknownOpcodeClass 0b101#3) ∧
    (nextState (step { stateS6 with program := [.execute 0b100#3] })).isSome = true ∧ stateS6.variant = .nmos6502 := by decide

theorem witness_OpcodeBytesOutsideTheBlockRefused :
    refusal (step { State.reset with mem := [(0, 0x92#8)], program := [.dispatch] }) = some (.opcodeOutsideBlock 0x92#8) ∧
    (nextState (step { stateS2 with program := [.dispatch] })).isSome = true ∧
    refusal (step { State.reset with program := [.dispatch] }) = some (.unmappedRead 0x0000#16) := by decide

theorem witness_BinaryAddResult : (Instr.aluAddBinNmos = .aluAddBinNmos ∨ Instr.aluAddBinNmos = .aluAddBinCmos) ∧
    (Instr.aluAddBinCmos = .aluAddBinNmos ∨ Instr.aluAddBinCmos = .aluAddBinCmos) := by decide
theorem witness_BinarySubtractResult : (Instr.aluSubBinNmos = .aluSubBinNmos ∨ Instr.aluSubBinNmos = .aluSubBinCmos) ∧
    (Instr.aluSubBinCmos = .aluSubBinNmos ∨ Instr.aluSubBinCmos = .aluSubBinCmos) := by decide
theorem witness_BinaryAddOverflowIsSignedOverflow :
    (aluRun .aluAddBinNmos true 0x7F#8 0x00#8).map (·.overflow) = some true ∧
    (aluRun .aluAddBinCmos false 0x7F#8 0x00#8).map (·.overflow) = some false := by decide
theorem witness_BinarySubtractIsDifference :
    (aluRun .aluSubBinNmos true 0x05#8 0x05#8).map (·.carry) = some true ∧
    (aluRun .aluSubBinCmos false 0x05#8 0x05#8).map (·.carry) = some false := by decide
theorem witness_BinaryModeLaws : aluRun .aluAddBinNmos false 0x99#8 0x00#8 = some ⟨0x99#8, true, false, false, false⟩ ∧
    aluRun .aluSubBinCmos true 0x05#8 0x00#8 = some ⟨0x05#8, false, false, false, true⟩ ∧
    aluRun .aluSubBinNmos false 0x05#8 0x00#8 = some ⟨0x04#8, false, false, false, true⟩ := by decide

theorem witness_DecimalAddIsBcdAddition : ValidBCD (aluState true 0x99#8 0x90#8).aluIn.accumulator.toNat ∧
    ValidBCD (aluState true 0x99#8 0x90#8).aluIn.operand.toNat := by unfold ValidBCD; decide
theorem witness_DecimalSubtractIsBcdSubtraction : ValidBCD (aluState false 0x00#8 0x99#8).aluIn.accumulator.toNat ∧
    ValidBCD (aluState false 0x00#8 0x99#8).aluIn.operand.toNat := by unfold ValidBCD; decide
theorem witness_AluIsPureAndTotal : (aluState true 0xFF#8 0x01#8).aluIn.accumulator = { stateS6 with aluIn := ⟨true, 0xFF#8, 0x01#8, true⟩ }.aluIn.accumulator ∧
    (aluState true 0xFF#8 0x01#8).aluIn.initialCarry = { stateS6 with aluIn := ⟨true, 0xFF#8, 0x01#8, true⟩ }.aluIn.initialCarry ∧
    (aluState true 0xFF#8 0x01#8).aluIn.operand = { stateS6 with aluIn := ⟨true, 0xFF#8, 0x01#8, true⟩ }.aluIn.operand ∧
    Instr.aluSubDecCmos ∈ aluInstrs := by decide
theorem witness_WhereNegativeAndZeroDescribeTheResult :
    Instr.aluAddDecCmos ∈ [Instr.aluAddBinNmos, .aluAddBinCmos, .aluSubBinNmos, .aluSubBinCmos, .aluAddDecCmos] ∧
    Instr.aluSubDecNmos ∈ [Instr.aluAddDecNmos, .aluSubDecNmos] := by decide
theorem witness_BindingOfAdcAndSbc :
    ({ State.reset with D := true, program := [.bound .subtract 0xFF#8] } : State).program = .bound .subtract 0xFF#8 :: [] := rfl

theorem witness_ShaZpYResult : stateS4.variant = .nmos6502 ∧ stateS4.mem.read stateS4.PC.toNat = some 0x93#8 ∧
    stateS4.mem.read (stateS4.PC + 1#16).toNat = some 0xFF#8 ∧ stateS4.mem.read (0xFF#8).toNat = some 0x34#8 ∧
    stateS4.mem.read (((0xFF#8).toNat + 1) % 256) = some 0x56#8 ∧
    stateS4.mem.read (((0x34#8).toNat + stateS4.Y.toNat) % 256 + 256 * (0x56#8).toNat) = some 0xAA#8 := by decide
theorem witness_ShaAbsYResult : stateS7.variant = .nmos6502 ∧ stateS7.mem.read stateS7.PC.toNat = some 0x9F#8 ∧
    stateS7.mem.read (stateS7.PC + 1#16).toNat = some 0xFF#8 ∧ stateS7.mem.read (stateS7.PC + 2#16).toNat = some 0xFF#8 ∧
    stateS7.mem.read (((0xFF#8).toNat + stateS7.Y.toNat) % 256 + 256 * (0xFF#8).toNat) = some 0x11#8 := by decide
theorem witness_TasAbsYResult : stateS9.variant = .nmos6502 ∧ stateS9.mem.read stateS9.PC.toNat = some 0x9B#8 ∧
    stateS9.mem.read (stateS9.PC + 1#16).toNat = some 0x10#8 ∧ stateS9.mem.read (stateS9.PC + 2#16).toNat = some 0x20#8 ∧
    stateS9.mem.read (((0x10#8).toNat + stateS9.Y.toNat) % 256 + 256 * (0x20#8).toNat) = some 0x99#8 := by decide
theorem witness_ShyAbsXResult : stateS11.variant = .nmos6502 ∧ stateS11.mem.read stateS11.PC.toNat = some 0x9C#8 ∧
    stateS11.mem.read (stateS11.PC + 1#16).toNat = some 0xFE#8 ∧ stateS11.mem.read (stateS11.PC + 2#16).toNat = some 0x44#8 ∧
    stateS11.mem.read (((0xFE#8).toNat + stateS11.X.toNat) % 256 + 256 * (0x44#8).toNat) = some 0x01#8 := by decide
theorem witness_ShxAbsYResult : stateS14.variant = .nmos6502 ∧ stateS14.mem.read stateS14.PC.toNat = some 0x9E#8 ∧
    stateS14.mem.read (stateS14.PC + 1#16).toNat = some 0x10#8 ∧ stateS14.mem.read (stateS14.PC + 2#16).toNat = some 0x02#8 ∧
    stateS14.mem.read (((0x10#8).toNat + stateS14.Y.toNat) % 256 + 256 * (0x02#8).toNat) = some 0xAB#8 := by decide

theorem witness_SharedAlgorithmOfTheStores : stateS9.variant = .nmos6502 ∧
    (∃ fetched, fetchBase .abs (stateS9.setTrace []) = .ok (⟨0x10#8, 0x20#8⟩, fetched)) ∧
    stateS9.mem.read (((0x10#8).toNat + stateS9.Y.toNat) % 256 + 256 * (0x20#8).toNat) = some 0x99#8 :=
  ⟨rfl, ⟨_, rfl⟩, rfl⟩
theorem witness_StoreUnitFrame : (Instr.tasAbsY, Format.abs, IndexReg.y, ValueSource.sFromAX) ∈ storeTable ∧
    (Instr.shaZpY, Format.zpy, IndexReg.y, ValueSource.aAndX) ∈ storeTable ∧
    (∃ t, exec .tasAbsY stateS9 = .next t) ∧ ∃ t, exec .shaZpY stateS4 = .next t := ⟨by decide, by decide, ⟨_, rfl⟩, ⟨_, rfl⟩⟩
theorem witness_TraceIsReadsOfTheSnapshotThenOneWrite : Instr.shxAbsY ∈ storeInstrs ∧ ∃ t, exec .shxAbsY stateS16 = .next t :=
  ⟨by decide, _, rfl⟩

/-- SHA abs,y on base 12FF. -/
def stateAbsEdge (y : Byte) (dummy : Nat) : State := storeState 0x0200#16 0xFF#8 0xFF#8 y
  [(0x0200, 0x9F#8), (0x0201, 0xFF#8), (0x0202, 0x12#8), (dummy, 0x00#8)]

/-- SHA (zp),y on base 12F0, from the pointer at 40. -/
def stateZpyEdge (y : Byte) (dummy : Nat) : State := storeState 0x0200#16 0xFF#8 0xFF#8 y
  [(0x0040, 0xF0#8), (0x0041, 0x12#8), (0x0200, 0x93#8), (0x0201, 0x40#8), (dummy, 0x00#8)]

/-- Absolute indexed: both clauses at their boundary, the low sums 255 and 256. -/
theorem witness_WhereTheWriteLands : (Instr.shaAbsY, Format.abs, IndexReg.y, ValueSource.aAndX) ∈ storeTable ∧
    (∃ t, exec .shaAbsY (stateAbsEdge 0x00#8 0x12FF) = .next t) ∧ (∃ t, exec .shaAbsY (stateAbsEdge 0x01#8 0x1200) = .next t) ∧
    (∀ y dummy, (stateAbsEdge y dummy).mem.read ((stateAbsEdge y dummy).PC + 1#16).toNat = some 0xFF#8 ∧
      (stateAbsEdge y dummy).mem.read ((stateAbsEdge y dummy).PC + 2#16).toNat = some 0x12#8) ∧
    (0xFF#8).toNat + (indexValue .y (stateAbsEdge 0x00#8 0x12FF)).toNat = 255 ∧
    (0xFF#8).toNat + (indexValue .y (stateAbsEdge 0x01#8 0x1200)).toNat = 256 :=
  ⟨by decide, ⟨_, rfl⟩, ⟨_, rfl⟩, fun _ _ => ⟨rfl, rfl⟩, rfl, rfl⟩

/-- `(zp),y`: the same boundary. -/
theorem witness_WhereTheWriteLands_zpy : (Instr.shaZpY, Format.zpy, IndexReg.y, ValueSource.aAndX) ∈ storeTable ∧
    (∃ t, exec .shaZpY (stateZpyEdge 0x0F#8 0x12FF) = .next t) ∧ (∃ t, exec .shaZpY (stateZpyEdge 0x10#8 0x1200) = .next t) ∧
    (∀ y dummy, (stateZpyEdge y dummy).mem.read ((stateZpyEdge y dummy).PC + 1#16).toNat = some 0x40#8 ∧
      (stateZpyEdge y dummy).mem.read (0x40#8).toNat = some 0xF0#8 ∧
      (stateZpyEdge y dummy).mem.read (((0x40#8).toNat + 1) % 256) = some 0x12#8) ∧
    (0xF0#8).toNat + (indexValue .y (stateZpyEdge 0x0F#8 0x12FF)).toNat = 255 ∧
    (0xF0#8).toNat + (indexValue .y (stateZpyEdge 0x10#8 0x1200)).toNat = 256 :=
  ⟨by decide, ⟨_, rfl⟩, ⟨_, rfl⟩, fun _ _ => ⟨rfl, rfl, rfl⟩, rfl, rfl⟩

theorem witness_DummyByteReachesOnlyTheTrace : ∃ t, exec .shaAbsY stateS6 = .next t ∧
    t.trace = [⟨0x0200#16, 0x9F#8, .read⟩, ⟨0x0201#16, 0xC0#8, .read⟩, ⟨0x0202#16, 0x30#8, .read⟩] ++
      [⟨0x3040#16, 0xEE#8, .read⟩, ⟨0x2040#16, 0x20#8, .write⟩] ∧
    ∀ c ∈ ([⟨0x0200#16, 0x9F#8, .read⟩, ⟨0x0201#16, 0xC0#8, .read⟩, ⟨0x0202#16, 0x30#8, .read⟩] : List BusCycle),
      c.address ≠ 0x3040#16 := ⟨_, rfl, rfl, by decide⟩
/-- The Write lands on the address of the dummy Read. -/
theorem witness_DummyByteReachesOnlyTheTrace_same_address : ∃ t, exec .shyAbsX stateS10 = .next t ∧
    t.trace = [⟨0x0200#16, 0x9C#8, .read⟩, ⟨0x0201#16, 0x00#8, .read⟩, ⟨0x0202#16, 0x44#8, .read⟩] ++
      [⟨0x4405#16, 0x01#8, .read⟩, ⟨0x4405#16, 0x45#8, .write⟩] ∧
    ∀ c ∈ ([⟨0x0200#16, 0x9C#8, .read⟩, ⟨0x0201#16, 0x00#8, .read⟩, ⟨0x0202#16, 0x44#8, .read⟩] : List BusCycle),
      c.address ≠ 0x4405#16 := ⟨_, rfl, rfl, by decide⟩
theorem witness_ShyAndShxIgnoreA : (∃ t, exec .shyAbsX stateS11 = .next t) ∧ ∃ t, exec .shxAbsY stateS14 = .next t :=
  ⟨⟨_, rfl⟩, ⟨_, rfl⟩⟩
theorem witness_StoreUnitReadsNoFlag : Instr.tasAbsY ∈ storeInstrs ∧ ∃ t, exec .tasAbsY stateS9 = .next t :=
  ⟨by decide, _, rfl⟩

/-- The boundary codes 100 and 101, and an opcode byte of the block at PC. -/
theorem witness_StoreUnitRefusedOnCmos : Instr.shyAbsX ∈ storeInstrs ∧
    ({ stateS10 with variant := .cmos65c02 } : State).variant = .cmos65c02 ∧
    stateS10.mem.read stateS10.PC.toNat = some 0x9C#8 ∧
    [Invocation.execute 0b100#3, .execute 0b101#3, .dispatch].map
      (fun inv => refusal (step { stateS10 with variant := .cmos65c02, program := [inv] })) =
      [some .storeUnitOnCMOS, some .storeUnitOnCMOS, some .storeUnitOnCMOS] := by decide

/-- A total memory: every address mapped, to 0. -/
@[irreducible] def totalMemory : Nat → Memory → Memory
  | 0, m => m
  | n + 1, m => totalMemory n ((n, 0#8) :: m)

theorem totalMemory_read (n : Nat) (m : Memory) (a : Nat) (h : a < n ∨ ∃ b, m.read a = some b) :
    ∃ b, (totalMemory n m).read a = some b := by
  induction n generalizing m with
  | zero =>
    rw [totalMemory]
    rcases h with h | h
    · omega
    · exact h
  | succ n ih =>
    rw [totalMemory]
    refine ih _ ?_
    by_cases ha : a = n
    · exact .inr ⟨0#8, by simp [Memory.read, ha]⟩
    · rcases h with h | ⟨b, hb⟩
      · exact .inl (by omega)
      · exact .inr ⟨b, by simp [Memory.read, ha, hb]⟩

theorem totalMemory_total (s : State) : TotalMem { s with mem := totalMemory 65536 [] } :=
  fun a => totalMemory_read 65536 [] a.toNat (.inl a.isLt)

theorem witness_StoreUnitRunsUnlessUnmapped : Instr.shaZpY ∈ storeInstrs ∧ State.reset.variant = .nmos6502 ∧
    State.reset.mem.read State.reset.PC.toNat = none ∧ ∃ s : State, s.variant = .nmos6502 ∧ TotalMem s :=
  ⟨by decide, rfl, rfl, _, rfl, totalMemory_total State.reset⟩
theorem witness_MemoryPrimitives : stateS6.mem.read (0x0000#16).toNat = none ∧ stateS6.mem.read (0x3040#16).toNat = some 0xEE#8 := by
  decide
theorem witness_CanonicalMemoriesAreDeterminedByTheirReads : stateS6.mem.wf = true ∧
    Memory.wf [(0, 0#8), (65535, 0#8)] = true ∧ Memory.wf [(65536, 0#8)] = false ∧ Memory.wf [(1, 0#8), (1, 1#8)] = false := by decide
theorem witness_StepKeepsTheInvariant : ({ stateS9 with program := [.dispatch] } : State).Inv ∧
    ∃ t, step { stateS9 with program := [.dispatch] } = .next t := ⟨⟨by decide, .inl rfl⟩, _, rfl⟩
theorem witness_WhoMayChangeWhat : (∃ t, step { stateS9 with program := [.execute 0b010#3] } = .next t) ∧
    ∃ t, step { State.reset with program := [.bound .add 0x01#8] } = .next t := ⟨⟨_, rfl⟩, ⟨_, rfl⟩⟩
theorem witness_EveryStatedProgramRunsToItsEnd : ∃ s : State, s.variant = .nmos6502 ∧ TotalMem s ∧
    s.program = [.execute 0b000#3, .bound .subtract 0xFF#8, .compute .cmos65c02 .subtract ⟨false, 0#8, 0#8, true⟩, .execute 0b100#3] ∧
    ∀ inv ∈ s.program, statedInvocation inv = true :=
  ⟨{ { State.reset with program := [.execute 0b000#3, .bound .subtract 0xFF#8,
        .compute .cmos65c02 .subtract ⟨false, 0#8, 0#8, true⟩, .execute 0b100#3] } with mem := totalMemory 65536 [] },
    rfl, totalMemory_total _, rfl, by decide⟩

theorem witness_StoreIsSeenByTheNextFetch : ∃ t, exec .shxAbsY statePatch = .next t ∧
    t.trace = [⟨0x9200#16, 0x9E#8, .read⟩, ⟨0x9201#16, 0x03#8, .read⟩, ⟨0x9202#16, 0x92#8, .read⟩,
      ⟨0x9203#16, 0x00#8, .read⟩] ++ [⟨t.PC, 0x93#8, .write⟩] ∧
    decodeOpcode 0x93#8 = .ok .shaZpY ∧ t.program = .dispatch :: [] := ⟨_, rfl, rfl, rfl, rfl⟩

end Sys2Proof.Tests
end

section
/-! The memory primitives of R13 (obligation O37). -/

namespace Sys2Proof.Machine

/-- Of two writes to one address the later one counts, in any list. -/
@[simp] theorem Memory.write_write_same (m : Memory) (a : Nat) (v w : Byte) :
    (m.write a v).write a w = m.write a w := by
  induction m with
  | nil => simp [Memory.write]
  | cons c rest ih =>
    obtain ⟨b, x⟩ := c
    rcases lt_trichotomy a b with hlt | rfl | hgt
    · simp [Memory.write, hlt]
    · simp [Memory.write]
    · have hnlt : ¬ a < b := by omega
      have hne : a ≠ b := by omega
      simp [Memory.write, hnlt, hne, ih]

@[simp] theorem memWrite_mem (addr : Addr) (v : Byte) (s : State) :
    (memWrite addr v s).mem = s.mem.write addr.toNat v := rfl

@[simp] theorem memWrite_trace (addr : Addr) (v : Byte) (s : State) :
    (memWrite addr v s).trace = s.trace ++ [⟨addr, v, .write⟩] := rfl

/-- Settles O37: the laws of reading after writing, on the memory and on the bus. -/
theorem memoryPrimitives : Obligations.MemoryPrimitives := by
  intro s addr v
  refine ⟨memWrite_trace addr v s, ?readBack, ?otherAddresses, ?writeAgain, ?unmapped, ?mapped⟩
  case readBack => exact memRead_ok.2 ⟨by simp, rfl⟩
  case otherAddresses => exact fun a ha => Memory.read_write_other s.mem v ha
  case writeAgain => simp
  case unmapped => exact fun hnone => memRead_error.2 ⟨hnone, rfl⟩
  case mapped => exact fun b hb => memRead_ok.2 ⟨hb, rfl⟩

end Sys2Proof.Machine
end

section
/-! What an invocation may change (obligation O41). -/

namespace Sys2Proof.Machine

/-- A store instruction that answers next has changed at most PC, S, memory and the trace (R136). -/
theorem exec_store_frame {i : Instr} {s t : State} (hi : storeForm i ≠ none) (h : exec i s = .next t) :
    ∃ pc v m l, t = (((s.setPC pc).setS v).setMem m).setTrace l := by
  obtain ⟨⟨format, index, source⟩, hform⟩ := Option.ne_none_iff_exists'.1 hi
  rw [exec_store hform] at h
  obtain ⟨base, fetched, reads, dummy, -, -, -, -, -, ht⟩ := storeUnit_effect (storeForm_format hform).1 h
  exact ⟨_, _, _, _, ht⟩

/-- What an invocation that answers next has changed, by its form: the ALU's ports for a `compute`, the result's registers
too for a bound ADC or SBC (R26), PC, S, memory and the trace for the store unit. -/
theorem invoke_frame {inv : Invocation} {s t : State} (h : invoke inv s = .next t) :
    ((∃ v o x, inv = .compute v o x) ∧ ∃ x r, t = (s.setAluIn x).setAluOut r) ∨
      ((∃ o b, inv = .bound o b) ∧ ∃ x r, t = ((s.setAluIn x).setAluOut r).bindResult r) ∨
      (((∃ code, inv = .execute code) ∨ inv = .dispatch) ∧
        ∃ pc v m l, t = (((s.setPC pc).setS v).setMem m).setTrace l) := by
  obtain ⟨i, s1, s2, hsel, hexec, rfl⟩ := invoke_next.1 h
  rcases select_ok hsel with ⟨hform, hi, x, rfl⟩ | ⟨hform, hi, rfl⟩
  · obtain ⟨r, hr⟩ := exec_alu hi (s.setAluIn x)
    cases hr.symm.trans hexec
    rcases hform with ⟨v, o, y, rfl⟩ | ⟨o, b, rfl⟩
    · exact .inl ⟨⟨v, o, y, rfl⟩, x, r, rfl⟩
    · exact .inr (.inl ⟨⟨o, b, rfl⟩, x, r, rfl⟩)
  · obtain ⟨pc, v, m, l, rfl⟩ := exec_store_frame hi hexec
    refine .inr (.inr ⟨hform, pc, v, m, l, ?_⟩)
    rcases hform with ⟨code, rfl⟩ | rfl <;> rfl

/-- Settles O41, by the form of the invocation that the step takes off the list. -/
theorem whoMayChangeWhat : Obligations.WhoMayChangeWhat := by
  intro s t hstep
  obtain ⟨inv, rest, hprogram, hinvoke⟩ := step_next.1 hstep
  rcases invoke_frame hinvoke with ⟨hcompute, x, r, rfl⟩ | ⟨hbound, x, r, rfl⟩ | ⟨hstore, pc, v, m, l, rfl⟩
  · simp [hprogram, hcompute]
  · simp [hprogram, hbound]
  · rcases hstore with hexecute | hdispatch
    · simp [hprogram, hexecute]
    · simp [hprogram, hdispatch]

end Sys2Proof.Machine
end

section
/-! Refusals of an invocation (obligation O5). -/

namespace Sys2Proof.Machine

/-- An instruction is refused only by the store unit: on CMOS65C02 (R121), or for an unmapped address (R56). -/
theorem exec_refused {i : Instr} {s : State} {r : Refusal} (h : exec i s = .refused r) :
    (s.variant = .cmos65c02 ∧ r = .storeUnitOnCMOS) ∨
      ∃ a : Addr, r = .unmappedRead a ∧ s.mem.read a.toNat = none := by
  cases hform : storeForm i with
  | none =>
    obtain ⟨result, hnext⟩ := exec_alu hform s
    cases hnext.symm.trans h
  | some p =>
    obtain ⟨format, index, source⟩ := p
    rw [exec_store hform] at h
    exact storeUnit_refused (storeForm_format hform).1 h

/-- The two ways an invocation is refused: where it is selected, or by its instruction. -/
theorem invoke_refused {inv : Invocation} {s : State} {r : Refusal} :
    invoke inv s = .refused r ↔
      select inv s = .error r ∨ ∃ i s1, select inv s = .ok (i, s1) ∧ exec i s1 = .refused r := by
  unfold invoke
  cases select inv s with
  | error r' => simp [refuse]
  | ok p =>
    obtain ⟨i, s1⟩ := p
    cases hexec : exec i s1 <;> simp [and_assoc, hexec]

/-- A `dispatch` is refused by name where the byte at PC is not mapped. -/
theorem select_dispatch_unmapped {s : State} (h : s.mem.read s.PC.toNat = none) :
    select .dispatch s = .error (.unmappedRead s.PC) := by
  simp [select, h]

/-- A `dispatch` selects the instruction of the opcode byte at PC (R76). -/
theorem select_dispatch_of_decode_ok {s : State} {opcode : Byte} {i : Instr}
    (h : s.mem.read s.PC.toNat = some opcode) (hi : decodeOpcode opcode = .ok i) : select .dispatch s = .ok (i, s) := by
  simp [select, h, hi]

/-- A `dispatch` is refused by name where the opcode byte at PC names no instruction (R77). -/
theorem select_dispatch_of_decode_error {s : State} {opcode : Byte} {e : Reject}
    (h : s.mem.read s.PC.toNat = some opcode) (he : decodeOpcode opcode = .error e) :
    select .dispatch s = .error (.opcodeOutsideBlock opcode) := by
  simp [select, h, he]

/-- Settles O5: one of the five bytes selects an instruction, and no instruction is refused as outside the block. -/
theorem opcodeBytesOutsideTheBlockRefused : Obligations.OpcodeBytesOutsideTheBlockRefused := by
  intro s rest hprogram
  rw [step_cons hprogram]
  constructor
  · intro opcode hread
    rcases decodeOpcode_cases opcode with ⟨hmem, i, hi, -, -⟩ | ⟨hnotMem, he⟩
    · have hsel : select .dispatch (s.setProgram rest) = .ok (i, s.setProgram rest) :=
        select_dispatch_of_decode_ok hread hi
      refine iff_of_false (fun hrefused => ?_) (not_not_intro hmem)
      rcases invoke_refused.1 hrefused with herror | ⟨j, s1, -, hexec⟩
      · cases hsel.symm.trans herror
      · rcases exec_refused hexec with ⟨-, hr⟩ | ⟨a, hr, -⟩ <;> cases hr
    · exact iff_of_true (invoke_refused.2 (.inl (select_dispatch_of_decode_error hread he))) hnotMem
  · intro hnone
    exact invoke_refused.2 (.inl (select_dispatch_unmapped (s := s.setProgram rest) hnone))

end Sys2Proof.Machine
end

section
/-! The trace a store leaves, and the invariant of the machine (obligations O29, O39, O40). -/

namespace Sys2Proof.Machine

open Sys2Proof.Spec

/-- The opcode classes are the instructions that have store-unit parameters (R74). -/
theorem mem_storeInstrs_iff {i : Instr} : i ∈ storeInstrs ↔ storeForm i ≠ none := by
  cases i <;> decide

/-- `SHA (zp),y` alone has the format `zpy` (R74). -/
theorem storeForm_zpy_iff {i : Instr} {format : Format} {index : IndexReg} {source : ValueSource}
    (h : storeForm i = some (format, index, source)) : format = .zpy ↔ i = .shaZpY := by
  cases i <;> cases h <;> decide

/-- A store that answers next leaves a trace of Reads of the bytes on entry and then the one Write, which is all that
memory changes by (R34, R57, R128). -/
theorem exec_store_trace {i : Instr} {s t : State} (hi : storeForm i ≠ none) (h : exec i s = .next t) :
    ∃ (reads : List BusCycle) (addr : Addr) (v : Byte),
      t.trace = reads ++ [⟨addr, v, .write⟩] ∧ reads.length = (if i = .shaZpY then 5 else 4) ∧
      (∀ c ∈ reads, c.direction = .read ∧ s.mem.read c.address.toNat = some c.value) ∧
      t.mem = s.mem.write addr.toNat v := by
  obtain ⟨⟨format, index, source⟩, hform⟩ := Option.ne_none_iff_exists'.1 hi
  rw [exec_store hform] at h
  obtain ⟨base, fetched, reads, dummy, -, -, hlength, hreads, hdummy, rfl⟩ :=
    storeUnit_effect (storeForm_format hform).1 h
  refine ⟨reads ++ [⟨readAddress base.lo base.hi (indexValue index s), dummy, .read⟩],
    _, _, ?trace, ?length, ?snapshot, rfl⟩
  case trace => simp
  case length => by_cases hz : i = .shaZpY <;> simp [hlength, storeForm_zpy_iff hform, hz]
  case snapshot =>
    intro c hc
    rcases List.mem_append.1 hc with hfetch | hlast
    · exact hreads c hfetch
    · obtain rfl := List.mem_singleton.1 hlast
      exact ⟨rfl, hdummy⟩

/-- Settles O29, from what a store's trace is made of. -/
theorem traceIsReadsOfTheSnapshotThenOneWrite : Obligations.TraceIsReadsOfTheSnapshotThenOneWrite := by
  intro i hi s t h
  obtain ⟨reads, addr, v, htrace, hlength, hreads, hmem⟩ := exec_store_trace (mem_storeInstrs_iff.1 hi) h
  refine ⟨reads, addr, v, htrace, ?_, hreads, hmem, by simp [hmem]⟩
  rw [htrace, List.length_append, hlength]
  split_ifs <;> rfl

/-- An invocation that answers next keeps memory and the trace, or has run a store on the memory it was given. -/
theorem invoke_keeps_or_stores {inv : Invocation} {s t : State} (h : invoke inv s = .next t) :
    (t.mem = s.mem ∧ t.trace = s.trace) ∨ ∃ i, storeForm i ≠ none ∧ exec i s = .next t := by
  obtain ⟨i, s1, s2, hsel, hexec, rfl⟩ := invoke_next.1 h
  rcases select_ok hsel with ⟨hform, hi, x, rfl⟩ | ⟨hform, hi, rfl⟩
  · obtain ⟨r, hr⟩ := exec_alu hi (s.setAluIn x)
    cases hr.symm.trans hexec
    rcases hform with ⟨v, o, y, rfl⟩ | ⟨o, b, rfl⟩ <;> exact .inl ⟨rfl, rfl⟩
  · rcases hform with ⟨code, rfl⟩ | rfl <;> exact .inr ⟨i, hi, hexec⟩

/-- The invariant speaks of memory and the trace alone. -/
theorem State.Inv.congr {s t : State} (h : s.Inv) (hmem : t.mem = s.mem) (htrace : t.trace = s.trace) : t.Inv := by
  rw [State.Inv, hmem, htrace]
  exact h

/-- A store on canonical memory establishes the invariant, whatever the trace was before. -/
theorem exec_store_inv {i : Instr} {s t : State} (hi : storeForm i ≠ none) (hwf : s.mem.wf = true)
    (h : exec i s = .next t) : t.Inv := by
  obtain ⟨reads, addr, v, htrace, hlength, hreads, hmem⟩ := exec_store_trace hi h
  refine ⟨by rw [hmem]; exact Memory.wf_write addr v hwf, .inr ⟨reads, addr, v, htrace, ?_, ?_, by simp [hmem]⟩⟩
  · split_ifs at hlength
    · exact .inr hlength
    · exact .inl hlength
  · exact fun c hc => (hreads c hc).1

/-- Settles O39: a step keeps memory and trace, or leaves those of one store. -/
theorem stepKeepsTheInvariant : Obligations.StepKeepsTheInvariant := by
  intro s t hinv hstep
  obtain ⟨inv, rest, -, hinvoke⟩ := step_next.1 hstep
  rcases invoke_keeps_or_stores hinvoke with ⟨hmem, htrace⟩ | ⟨i, hi, hexec⟩
  · exact hinv.congr hmem htrace
  · exact exec_store_inv (s := s.setProgram rest) hi hinv.1 hexec

/-- Settles O40, field by field. -/
theorem resetMeetsTheInvariant : Obligations.ResetMeetsTheInvariant :=
  ⟨⟨rfl, .inl rfl⟩, rfl, rfl, rfl, rfl, rfl, rfl, rfl, rfl, rfl, rfl, rfl, rfl, rfl, rfl, rfl, rfl, fun _ => rfl⟩

end Sys2Proof.Machine
end

section
/-! Canonical memories (obligation O38). -/

namespace Sys2Proof.Machine

/-- Where the list starts, in a memory that is in canonical form from a bound on. -/
theorem Memory.risingFrom_cons {low b : Nat} {v : Byte} {rest : Memory} :
    Memory.risingFrom low ((b, v) :: rest) = true ↔ low ≤ b ∧ b < 65536 ∧ rest.risingFrom (b + 1) = true := by
  simp [Memory.risingFrom, and_assoc]

/-- What the tail of a canonical memory reads: all that the memory reads but for its first address. -/
theorem Memory.read_tail {b : Nat} {v : Byte} {rest : Memory} (h : rest.risingFrom (b + 1) = true) (a : Nat) :
    rest.read a = if a = b then none else Memory.read ((b, v) :: rest) a := by
  split_ifs with hab
  · exact rest.read_below h (by omega)
  · simp [Memory.read, hab]

/-- The first listed address of a canonical memory is the least one that reads as a value. -/
theorem Memory.head_le_of_read {low b : Nat} {v w : Byte} {rest : Memory} {a : Nat}
    (h : Memory.risingFrom low ((b, v) :: rest) = true) (hread : Memory.read ((b, v) :: rest) a = some w) : b ≤ a := by
  obtain ⟨-, hb, hrest⟩ := Memory.risingFrom_cons.1 h
  by_contra hlt
  have hnone : Memory.read ((b, v) :: rest) a = none :=
    Memory.read_below _ (Memory.risingFrom_cons.2 ⟨le_refl b, hb, hrest⟩) (not_le.1 hlt)
  cases hnone.symm.trans hread

/-- The first listed address reads as the first listed value. -/
@[simp] theorem Memory.read_head (b : Nat) (v : Byte) (rest : Memory) : Memory.read ((b, v) :: rest) b = some v := by
  simp [Memory.read]

/-- Canonical memories that read alike are the same list: their first addresses bound each other, so they and their values
agree, and so do the tails' reads. -/
theorem Memory.eq_of_read_eq {low low' : Nat} {m m' : Memory} (hm : m.risingFrom low = true)
    (hm' : m'.risingFrom low' = true) (hread : ∀ a, m.read a = m'.read a) : m = m' := by
  induction m generalizing low low' m' with
  | nil =>
    cases m' with
    | nil => rfl
    | cons c' rest' => cases (hread c'.1).trans (Memory.read_head c'.1 c'.2 rest')
  | cons c rest ih =>
    obtain ⟨b, v⟩ := c
    cases m' with
    | nil => cases (hread b).symm.trans (Memory.read_head b v rest)
    | cons c' rest' =>
      obtain ⟨b', v'⟩ := c'
      have hhead : Memory.read ((b', v') :: rest') b = some v := by rw [← hread, Memory.read_head]
      have hhead' : Memory.read ((b, v) :: rest) b' = some v' := by rw [hread, Memory.read_head]
      obtain rfl : b = b' := le_antisymm (Memory.head_le_of_read hm hhead') (Memory.head_le_of_read hm' hhead)
      obtain rfl : v = v' := by simpa using hhead.symm
      obtain ⟨-, -, hrest⟩ := Memory.risingFrom_cons.1 hm
      obtain ⟨-, -, hrest'⟩ := Memory.risingFrom_cons.1 hm'
      rw [ih hrest hrest' fun a => by rw [Memory.read_tail hrest (v := v), Memory.read_tail hrest' (v := v), hread]]

/-- Settles O38, from the two laws of the canonical form. -/
theorem canonicalMemoriesAreDeterminedByTheirReads : Obligations.CanonicalMemoriesAreDeterminedByTheirReads :=
  ⟨fun _ _ hm hm' hread => Memory.eq_of_read_eq hm hm' hread, fun _ addr v hm => Memory.wf_write addr v hm⟩

end Sys2Proof.Machine
end

section
/-! The ALU's invocations and the step that runs them (obligations O3, O19, O21). -/

namespace Sys2Proof.Machine

open Sys2Proof.Spec

/-- The ALU instructions are those without store-unit parameters (R72, R74). -/
theorem mem_aluInstrs_iff {i : Instr} : i ∈ aluInstrs ↔ storeForm i = none := by
  cases i <;> decide

/-- An ALU instruction is one function of `c`, `a`, `m` in every state (R24). -/
theorem exec_alu_function {i : Instr} (h : storeForm i = none) :
    ∃ f : Bool → Byte → Byte → AluResult, ∀ s, exec i s = aluCompute f s := by
  cases i <;> cases h <;> exact ⟨_, fun _ => rfl⟩

/-- Settles O19: the result is the instruction's function on `c`, `a`, `m`. -/
theorem aluIsPureAndTotal : Obligations.AluIsPureAndTotal := by
  intro i hi s s' hc ha hm
  obtain ⟨f, hf⟩ := exec_alu_function (mem_aluInstrs_iff.1 hi)
  refine ⟨f s.aluIn.initialCarry s.aluIn.accumulator s.aluIn.operand, hf s, ?_⟩
  rw [hf, aluCompute_eq, hc, ha, hm]
  rfl

/-- Settles O21: the selected instruction's function on the bound input gives the result that is bound (R26). -/
theorem bindingOfAdcAndSbc : Obligations.BindingOfAdcAndSbc := by
  intro s o operand rest hprogram
  obtain ⟨f, hf⟩ := exec_alu_function (decodeSel_alu (selWord s.variant o s.D))
  refine ⟨f s.C s.A operand, ?anyState, ?bound⟩
  case anyState =>
    intro s' hinput
    have hresult := hf s'
    rw [aluCompute_eq, hinput] at hresult
    exact hresult
  case bound =>
    rw [step_cons hprogram]
    exact invoke_next.2 ⟨_, _, _, rfl, hf _, rfl⟩

/-- An invocation whose result is written to no register is the instruction it selects. -/
theorem invoke_eq_exec {inv : Invocation} {s s1 : State} {i : Instr} (hsel : select inv s = .ok (i, s1))
    (hretire : ∀ u, retire inv u = u) : invoke inv s = exec i s1 := by
  simp only [invoke, hsel, hretire]
  cases exec i s1 <;> rfl

/-- On NMOS6502 an `execute` selects the instruction of its class code (R77). -/
theorem select_execute_of_decode_ok {s : State} {code : BitVec 3} {i : Instr} (hv : s.variant = .nmos6502)
    (hi : decodeClass code = .ok i) : select (.execute code) s = .ok (i, s) := by
  simp [select, hv, hi]

/-- Settles O3, by the form of the invocation. -/
theorem stepRunsTheSelectedInstruction : Obligations.StepRunsTheSelectedInstruction := by
  intro s rest
  refine ⟨?compute, ?bound, ?execute, ?dispatch⟩
  case compute =>
    intro v o input hprogram
    rw [step_cons hprogram, invoke_eq_exec rfl fun _ => rfl]
    rfl
  case bound =>
    intro o operand t hprogram hexec
    rw [step_cons hprogram]
    exact invoke_next.2 ⟨_, _, t, rfl, hexec, rfl⟩
  case execute =>
    intro code i hprogram hv hi
    rw [step_cons hprogram]
    exact invoke_eq_exec (select_execute_of_decode_ok hv hi) fun _ => rfl
  case dispatch =>
    intro opcode i hprogram hread hi
    rw [step_cons hprogram]
    exact invoke_eq_exec (select_dispatch_of_decode_ok hread hi) fun _ => rfl

end Sys2Proof.Machine
end

section
/-! Where N and Z describe the ALU's result byte (obligation O20). -/

namespace Sys2Proof.Machine

open Sys2Proof.Spec

/-- Binary mode and decimal Add on CMOS65C02 compute N and Z from the result byte (R90, R91, R102). -/
theorem exec_flags_of_result {i : Instr}
    (hi : i ∈ [Instr.aluAddBinNmos, .aluAddBinCmos, .aluSubBinNmos, .aluSubBinCmos, .aluAddDecCmos]) (s : State) :
    ∃ r, exec i s = .next (s.setAluOut r) ∧ r.negative = negativeFlag r.accumulator ∧
      r.zero = zeroFlag r.accumulator := by
  fin_cases hi <;> exact ⟨_, rfl, rfl, rfl⟩

/-- Settles O20. On NMOS6502 the decimal counterexamples are 0x99 + 0x99 and 0x00 - 0x30 for N, 0x99 + 0x01
and, with a borrow, 0x00 - 0xFF for Z. -/
theorem whereNegativeAndZeroDescribeTheResult : Obligations.WhereNegativeAndZeroDescribeTheResult := by
  refine ⟨?describe, ?fail⟩
  case describe =>
    intro i hi s
    obtain ⟨r, hexec, hnegative, hzero⟩ := exec_flags_of_result hi s
    refine ⟨_, hexec, hnegative.trans (bit7_eq _), ?_⟩
    rw [State.setAluOut_aluOut, hzero, zeroFlag, beq_iff_eq]
  case fail =>
    intro i hi
    simp only [List.mem_cons, List.not_mem_nil, or_false] at hi
    rcases hi with rfl | rfl
    · exact ⟨⟨State.reset.setAluIn ⟨false, 0x99#8, 0x99#8, true⟩, _, rfl, by decide⟩,
        ⟨State.reset.setAluIn ⟨false, 0x99#8, 0x01#8, true⟩, _, rfl, by decide⟩⟩
    · exact ⟨⟨State.reset.setAluIn ⟨true, 0x00#8, 0x30#8, true⟩, _, rfl, by decide⟩,
        ⟨State.reset.setAluIn ⟨false, 0x00#8, 0xFF#8, true⟩, _, rfl, by decide⟩⟩

end Sys2Proof.Machine
end

section
/-! What the store unit reads of its state (obligation O34). -/

namespace Sys2Proof.Machine

/-- The operand fetch reads PC and memory, and moves PC and the trace: it does the same on any state that agrees on them. -/
theorem fetchBase_congr {format : Format} {s s1 u : State} {base : Base} (hf : format ≠ .aluSel)
    (h : fetchBase format s = .ok (base, s1)) (hpc : u.PC = s.PC) (hmem : u.mem = s.mem) (htrace : u.trace = s.trace) :
    fetchBase format u = .ok (base, (u.setPC s1.PC).setTrace s1.trace) := by
  cases format with
  | aluSel => exact absurd rfl hf
  | zpy =>
    obtain ⟨opcode, zp, hopcode, hzp, hlo, hhi, rfl⟩ := fetchZpy_ok.1 h
    refine fetchZpy_ok.2 ⟨opcode, zp, ?_⟩
    rw [hpc, hmem, htrace]
    exact ⟨hopcode, hzp, hlo, hhi, rfl⟩
  | abs =>
    obtain ⟨opcode, hopcode, hlo, hhi, rfl⟩ := fetchAbs_ok.1 h
    refine fetchAbs_ok.2 ⟨opcode, ?_⟩
    rw [hpc, hmem, htrace]
    exact ⟨hopcode, hlo, hhi, rfl⟩

@[simp] theorem indexValue_setPC (index : IndexReg) (s : State) (pc : Addr) :
    indexValue index (s.setPC pc) = indexValue index s := by cases index <;> rfl

@[simp] theorem indexValue_setTrace (index : IndexReg) (s : State) (l : List BusCycle) :
    indexValue index (s.setTrace l) = indexValue index s := by cases index <;> rfl

@[simp] theorem regsOf_setPC (source : ValueSource) (s : State) (pc : Addr) :
    regsOf source (s.setPC pc) = regsOf source s := by cases source <;> rfl

@[simp] theorem regsOf_setTrace (source : ValueSource) (s : State) (l : List BusCycle) :
    regsOf source (s.setTrace l) = regsOf source s := by cases source <;> rfl

/-- The store unit reads the strap, PC, memory, its index register and its value source, and nothing else of the state: on
any state that agrees on them it does the same to PC, memory and the trace (R124 to R127, R136). -/
theorem storeUnit_congr {format : Format} {index : IndexReg} {source : ValueSource} {s t u : State}
    (hf : format ≠ .aluSel) (h : storeUnit format index source s = .next t) (hvariant : u.variant = s.variant)
    (hpc : u.PC = s.PC) (hmem : u.mem = s.mem) (hindex : indexValue index u = indexValue index s)
    (hregs : regsOf source u = regsOf source s) :
    storeUnit format index source u =
      .next ((((u.setPC t.PC).setS (if source = .sFromAX then u.A &&& u.X else u.S)).setMem t.mem).setTrace t.trace) := by
  obtain ⟨hnmos, base, s1, hbase, hstore⟩ := storeUnit_next.1 h
  obtain ⟨reads, -, -, rfl⟩ := fetchBase_ok hf hbase
  obtain ⟨dummy, hdummy, rfl⟩ := storeAt_ok.1 hstore
  refine storeUnit_next.2 ⟨hvariant.trans hnmos, base, _, fetchBase_congr hf hbase hpc hmem rfl,
    storeAt_ok.2 ⟨dummy, ?dummyRead, ?after⟩⟩
  case dummyRead => simpa [hmem, hindex] using hdummy
  case after =>
    simp only [indexValue_setTrace, indexValue_setPC, regsOf_setTrace, regsOf_setPC, State.setTrace_mem,
      State.setPC_mem, hindex, hregs, hmem]
    rfl

/-- Settles O34: the flags are none of the things the store unit reads. -/
theorem storeUnitReadsNoFlag : Obligations.StoreUnitReadsNoFlag := by
  intro i hi s t n v d f z c h
  obtain ⟨⟨format, index, source⟩, hform⟩ := Option.ne_none_iff_exists'.1 (mem_storeInstrs_iff.1 hi)
  have hf : format ≠ .aluSel := (storeForm_format hform).1
  rw [exec_store hform] at h ⊢
  have hflags : storeUnit format index source { s with N := n, V := v, D := d, I := f, Z := z, C := c } = _ :=
    storeUnit_congr hf h rfl rfl rfl (by cases index <;> rfl) (by cases source <;> rfl)
  obtain ⟨base, fetched, reads, dummy, -, -, -, -, -, rfl⟩ := storeUnit_effect hf h
  exact hflags

end Sys2Proof.Machine
end

section
/-! When a store completes, and that the next fetch sees it (obligations O36, O45). -/

namespace Sys2Proof.Machine

/-- On NMOS6502 an instruction answers next, or is refused for an address that memory does not map (R56, R152). -/
theorem exec_next_or_unmapped (i : Instr) {s : State} (hv : s.variant = .nmos6502) :
    (∃ t, exec i s = .next t) ∨ ∃ a : Addr, exec i s = .refused (.unmappedRead a) ∧ s.mem.read a.toNat = none := by
  rcases exec_next_or_refused i s with hnext | ⟨r, hr⟩
  · exact .inl hnext
  · rcases exec_refused hr with ⟨hcmos, -⟩ | ⟨a, rfl, hnone⟩
    · cases hv.symm.trans hcmos
    · exact .inr ⟨a, hr, hnone⟩

/-- With a total memory nothing is left to refuse an instruction on NMOS6502. -/
theorem exec_next_of_totalMem (i : Instr) {s : State} (hv : s.variant = .nmos6502) (htotal : TotalMem s) :
    ∃ t, exec i s = .next t := by
  rcases exec_next_or_unmapped i hv with hnext | ⟨a, -, hnone⟩
  · exact hnext
  · obtain ⟨b, hb⟩ := htotal a
    cases hnone.symm.trans hb

/-- A Write unmaps no address (R56). -/
theorem TotalMem.of_write {s t : State} {addr : Addr} {v : Byte} (htotal : TotalMem s)
    (hmem : t.mem = s.mem.write addr.toNat v) : TotalMem t := by
  intro a
  rw [hmem, Memory.read_write]
  split_ifs
  · exact ⟨v, rfl⟩
  · exact htotal a

/-- A completed store keeps a total memory total. -/
theorem exec_store_totalMem {i : Instr} {s t : State} (hi : storeForm i ≠ none) (h : exec i s = .next t)
    (htotal : TotalMem s) : TotalMem t := by
  obtain ⟨_, addr, v, -, -, -, hmem⟩ := exec_store_trace hi h
  exact htotal.of_write hmem

/-- Both operand fetches begin with the opcode byte (R122, R123), so it is the first address they can be refused for. -/
theorem fetchBase_opcode_unmapped {format : Format} {s : State} (hf : format ≠ .aluSel)
    (hnone : s.mem.read s.PC.toNat = none) : fetchBase format s = .error (.unmappedRead s.PC) := by
  have hopcode : fetchByte s = .error (.unmappedRead s.PC) := fetchByte_error.2 ⟨hnone, rfl⟩
  cases format with
  | aluSel => exact absurd rfl hf
  | zpy => simp [fetchBase, fetchZpy, hopcode]
  | abs => simp [fetchBase, fetchAbs, hopcode]

/-- On NMOS6502 the store unit is refused for what its operand fetch is refused for (R152). -/
theorem storeUnit_refused_of_fetchBase {format : Format} {index : IndexReg} {source : ValueSource} {s : State}
    {r : Refusal} (hv : s.variant = .nmos6502) (hfetch : fetchBase format (s.setTrace []) = .error r) :
    storeUnit format index source s = .refused r := by
  simp [storeUnit, hv, hfetch, refuse]

/-- A store whose opcode byte is not mapped is refused with PC. -/
theorem exec_store_opcode_unmapped {i : Instr} {s : State} (hi : storeForm i ≠ none) (hv : s.variant = .nmos6502)
    (hnone : s.mem.read s.PC.toNat = none) : exec i s = .refused (.unmappedRead s.PC) := by
  obtain ⟨⟨format, index, source⟩, hform⟩ := Option.ne_none_iff_exists'.1 hi
  rw [exec_store hform]
  exact storeUnit_refused_of_fetchBase hv
    (fetchBase_opcode_unmapped (s := s.setTrace []) (storeForm_format hform).1 hnone)

/-- Settles O36, from the only refusal left on NMOS6502. -/
theorem storeUnitRunsUnlessUnmapped : Obligations.StoreUnitRunsUnlessUnmapped := by
  intro i hi s hv
  have hstore : storeForm i ≠ none := mem_storeInstrs_iff.1 hi
  refine ⟨exec_next_or_unmapped i hv, exec_store_opcode_unmapped hstore hv, fun htotal => ?_⟩
  obtain ⟨t, ht⟩ := exec_next_of_totalMem i hv htotal
  exact ⟨t, ht, exec_store_totalMem hstore ht htotal⟩

/-- Memory holds the byte of the Write that ends a completed store's trace (R51, R60). -/
theorem exec_store_read_write {i : Instr} {s t : State} {pre : List BusCycle} {addr : Addr} {v : Byte}
    (hi : storeForm i ≠ none) (h : exec i s = .next t) (htrace : t.trace = pre ++ [⟨addr, v, .write⟩]) :
    t.mem.read addr.toNat = some v := by
  obtain ⟨reads, addr', v', htrace', -, -, hmem⟩ := exec_store_trace hi h
  have hlast : [(⟨addr, v, .write⟩ : BusCycle)] = [⟨addr', v', .write⟩] :=
    List.append_inj_right' (htrace.symm.trans htrace') rfl
  cases hlast
  rw [hmem, Memory.read_write_same]

/-- Settles O45: the byte at PC is the one the store wrote, and the step dispatches on it. -/
theorem storeIsSeenByTheNextFetch : Obligations.StoreIsSeenByTheNextFetch := by
  intro i hi s t pre opcode j rest hexec htrace hdecode hprogram
  have hread : t.mem.read t.PC.toNat = some opcode := exec_store_read_write (mem_storeInstrs_iff.1 hi) hexec htrace
  obtain ⟨-, -, -, hdispatch⟩ := stepRunsTheSelectedInstruction t rest
  exact hdispatch opcode j hprogram hread hdecode

end Sys2Proof.Machine
end

section
/-! Decoding and encoding (obligations O1, O2). -/

namespace Sys2Proof

/-- Every instruction has its words, by its format, and they decode to it (R72, R74). -/
theorem Laws.Words.statement (i : Instr) : Laws.Words.Statement i := by
  cases i
  exacts [aluAddBinNmos, aluAddDecNmos, aluSubBinNmos, aluSubDecNmos, aluAddBinCmos, aluAddDecCmos, aluSubBinCmos,
    aluSubDecCmos, shaZpY, shaAbsY, tasAbsY, shyAbsX, shxAbsY]

/-- An instruction that is no opcode class takes no operand bytes (R72). -/
theorem Instr.operandBytes_of_not_isStore {i : Instr} (h : i.isStore = false) : i.format.operandBytes = 0 := by
  have hformat : i.format = .aluSel := by simpa [Instr.isStore] using h
  rw [hformat]
  rfl

/-- The opcode bytes are those of the five opcode classes (R74). -/
theorem isStore_of_encodeOpcode {i : Instr} {opcode : Byte} (h : encodeOpcode i = some opcode) : i.isStore = true := by
  cases i <;> cases h <;> rfl

/-- The decoder and the encoder agree on the opcode byte column of R74. -/
theorem decodeOpcode_ok_iff {opcode : Byte} {i : Instr} : decodeOpcode opcode = .ok i ↔ encodeOpcode i = some opcode := by
  constructor
  · intro h
    rcases decodeOpcode_cases opcode with ⟨-, j, hj, -, hencode⟩ | ⟨-, herror⟩
    · cases hj.symm.trans h
      exact hencode
    · cases herror.symm.trans h
  · intro h
    obtain ⟨opcode', -, hencode, hdecode, -⟩ := (Laws.Words.statement i).2 (isStore_of_encodeOpcode h)
    cases hencode.symm.trans h
    exact hdecode

/-- The encoding of an ALU instruction is its selector word (R72). -/
theorem encode_of_encodeSel {c : Coded} {sel : BitVec 3} (h : encodeSel c.instr = some sel) : encode c = .selector sel := by
  simp [encode, h]

/-- The encodings in bytes are the opcode bytes with operand bytes after them (R73). -/
theorem encode_stream_iff {c : Coded} {bytes : List Byte} :
    encode c = .stream bytes ↔ ∃ opcode, encodeOpcode c.instr = some opcode ∧ bytes = opcode :: c.operands := by
  obtain ⟨i, operands⟩ := c
  cases i <;> simp [encode, encodeSel, encodeOpcode, eq_comm]

/-- The operand bytes are split off in one way: as many as the format says (R73). -/
theorem takeOperands_ok_iff {i : Instr} {bytes rest : List Byte} {c : Coded} :
    takeOperands i bytes = .ok ⟨c, rest⟩ ↔ c.instr = i ∧ c.wellFormed = true ∧ bytes = c.operands ++ rest := by
  obtain ⟨j, operands⟩ := c
  simp only [takeOperands, Coded.wellFormed, beq_iff_eq]
  constructor
  · intro h
    split_ifs at h with hshort
    cases h
    exact ⟨rfl, List.length_take_of_le (not_lt.1 hshort), (List.take_append_drop _ bytes).symm⟩
  · rintro ⟨rfl, hlength, rfl⟩
    simp [← hlength]

/-- Decoding a stream that begins with a byte: the byte is an opcode byte, and the operands are split off what follows. -/
theorem decodeStream_cons_ok_iff {opcode : Byte} {bytes : List Byte} {d : Decoded} :
    decodeStream (opcode :: bytes) = .ok d ↔ ∃ i, decodeOpcode opcode = .ok i ∧ takeOperands i bytes = .ok d := by
  simp only [decodeStream]
  cases decodeOpcode opcode <;> simp

/-- The streams that decode: the opcode byte of a well-formed instruction, its operand bytes, and any rest (R73, R74). -/
theorem decodeStream_ok_iff {bytes rest : List Byte} {c : Coded} :
    decodeStream bytes = .ok ⟨c, rest⟩ ↔
      c.wellFormed = true ∧ ∃ opcode, encodeOpcode c.instr = some opcode ∧ bytes = opcode :: c.operands ++ rest := by
  cases bytes with
  | nil => simp [decodeStream]
  | cons opcode bytes =>
    simp only [decodeStream_cons_ok_iff, decodeOpcode_ok_iff, takeOperands_ok_iff, List.cons_append, List.cons.injEq]
    constructor
    · rintro ⟨_, hencode, rfl, hwf, hbytes⟩
      exact ⟨hwf, opcode, hencode, rfl, hbytes⟩
    · rintro ⟨hwf, _, hencode, rfl, hbytes⟩
      exact ⟨_, hencode, rfl, hwf, hbytes⟩

/-- A well-formed instruction is read back from its words, with nothing left over (R72, R73). -/
theorem decode_encode {c : Coded} (hwf : c.wellFormed = true) : decode (encode c) = .ok ⟨c, []⟩ := by
  obtain ⟨hselector, hstore⟩ := Laws.Words.statement c.instr
  cases hkind : c.instr.isStore with
  | false =>
    obtain ⟨sel, hencode, hdecode⟩ := hselector hkind
    have hoperands : c.operands = [] := by
      simpa [Coded.wellFormed, Instr.operandBytes_of_not_isStore hkind] using hwf
    rw [encode_of_encodeSel hencode, decode, hdecode, ← hoperands]
  | true =>
    obtain ⟨opcode, -, hencode, -⟩ := hstore hkind
    rw [encode_stream_iff.2 ⟨opcode, hencode, rfl⟩, decode, decodeStream_ok_iff]
    exact ⟨hwf, opcode, hencode, (List.append_nil _).symm⟩

/-- Settles O1: the words are read back, and the streams that decode are the encoded ones with any rest. -/
theorem decodeAndEncodeAgree : Obligations.DecodeAndEncodeAgree := by
  refine ⟨fun c => decode_encode, fun bytes rest c => decodeStream_ok_iff.trans ?_⟩
  constructor
  · rintro ⟨hwf, opcode, hencode, hbytes⟩
    exact ⟨hwf, isStore_of_encodeOpcode hencode, _, encode_stream_iff.2 ⟨opcode, hencode, rfl⟩, hbytes⟩
  · rintro ⟨hwf, -, coded, hcoded, hbytes⟩
    obtain ⟨opcode, hencode, rfl⟩ := encode_stream_iff.1 hcoded
    exact ⟨hwf, opcode, hencode, hbytes⟩

@[simp] theorem variantOfBit_variantBit (v : ProcessorVariant) : variantOfBit (variantBit v) = v := by cases v <;> rfl

@[simp] theorem operationOfBit_operationBit (o : Operation) : operationOfBit (operationBit o) = o := by cases o <;> rfl

/-- Settles O2: the words of the selector and of the classes by evaluation, the streams as the encoded bytes of well-formed instructions. -/
theorem wordsOfTheTablesDecode : Obligations.WordsOfTheTablesDecode := by
  refine ⟨by decide, by decide, variantOfBit_variantBit, operationOfBit_operationBit, rfl, rfl, rfl, rfl, ?_⟩
  refine ⟨?shaZpY, ?shaAbsY, ?tasAbsY, ?shyAbsX, ?shxAbsY⟩ <;> exact decodeStream_ok_iff.2 ⟨rfl, _, rfl, rfl⟩

end Sys2Proof
end

section
/-! The class codes that an `execute` refuses (obligation O4). -/

namespace Sys2Proof.Machine

/-- On NMOS6502 an `execute` is refused by name where its class code names no opcode class (R77). -/
theorem select_execute_of_decode_error {s : State} {code : BitVec 3} {e : Reject} (hv : s.variant = .nmos6502)
    (he : decodeClass code = .error e) : select (.execute code) s = .error (.unknownOpcodeClass code) := by
  simp [select, hv, he]

/-- No instruction is refused for a class code: the dispatcher alone does that. -/
theorem exec_not_unknownOpcodeClass (i : Instr) (s : State) (code : BitVec 3) :
    exec i s ≠ .refused (.unknownOpcodeClass code) := by
  intro h
  rcases exec_refused h with ⟨-, hr⟩ | ⟨a, hr, -⟩ <;> cases hr

/-- Settles O4: a code of R74 selects an instruction, and any other code is refused where it is selected. -/
theorem unknownClassCodesRefused : Obligations.UnknownClassCodesRefused := by
  intro s code rest hv hprogram
  rw [step_cons hprogram, invoke_refused]
  rcases decodeClass_cases code with ⟨hle, i, hi, -⟩ | ⟨hge, he⟩
  · have hsel : select (.execute code) (s.setProgram rest) = .ok (i, s.setProgram rest) :=
      select_execute_of_decode_ok hv hi
    refine iff_of_false ?notRefused (by omega)
    rintro (herror | ⟨j, s1, -, hexec⟩)
    · cases hsel.symm.trans herror
    · exact exec_not_unknownOpcodeClass j s1 code hexec
  · exact iff_of_true (.inl (select_execute_of_decode_error (s := s.setProgram rest) hv he)) hge

end Sys2Proof.Machine
end

section
/-! The ALU in binary mode (obligations O6 to O10). -/

namespace Sys2Proof.Machine

open Sys2Proof.Spec

/-- Binary Add is one function of `c`, `a`, `m` on both variants (R90). -/
theorem exec_binaryAdd {i : Instr} (hi : i = .aluAddBinNmos ∨ i = .aluAddBinCmos) (s : State) :
    exec i s = .next (s.setAluOut (binaryAdd s.aluIn.initialCarry s.aluIn.accumulator s.aluIn.operand)) := by
  rcases hi with rfl | rfl <;> rfl

/-- Binary Subtract is one function of `c`, `a`, `m` on both variants (R91). -/
theorem exec_binarySubtract {i : Instr} (hi : i = .aluSubBinNmos ∨ i = .aluSubBinCmos) (s : State) :
    exec i s = .next (s.setAluOut (binarySubtract s.aluIn.initialCarry s.aluIn.accumulator s.aluIn.operand)) := by
  rcases hi with rfl | rfl <;> rfl

/-- R90 on the numbers of the operands. -/
def addOfNumbers (c a m : Nat) : AluResult :=
  let sum := a + m + c
  let r := sum % 256
  { accumulator := BitVec.ofNat 8 r
    negative := bit r 7
    overflow := (bit a 7 ^^ bit r 7) && (bit m 7 ^^ bit r 7)
    zero := decide (r = 0)
    carry := decide (sum > 255) }

@[simp] theorem bit_toNat_seven (b : Byte) : bit b.toNat 7 = bit7 b := (bit7_eq b).symm

theorem zeroFlag_eq_decide (b : Byte) : zeroFlag b = decide (b.toNat = 0) :=
  Bool.eq_iff_iff.2 (by rw [zeroFlag_iff, decide_eq_true_iff])

theorem binaryAdd_accumulator_toNat (c : Bool) (a m : Byte) :
    (binaryAdd c a m).accumulator.toNat = (a.toNat + m.toNat + c.toNat) % 256 :=
  BitVec.toNat_ofNat _ 8

theorem binaryAdd_carry_iff (c : Bool) (a m : Byte) :
    (binaryAdd c a m).carry = true ↔ a.toNat + m.toNat + c.toNat > 255 :=
  decide_eq_true_iff

theorem binaryAdd_eq_addOfNumbers (c : Bool) (a m : Byte) :
    binaryAdd c a m = addOfNumbers c.toNat a.toNat m.toNat := by
  have hr := binaryAdd_accumulator_toNat c a m
  simp only [addOfNumbers, ← hr, bit_toNat_seven, BitVec.ofNat_toNat, BitVec.setWidth_eq, ← zeroFlag_eq_decide]
  rfl

/-- Settles O6: the add of bytes is the add of their numbers. -/
theorem binaryAddResult : Obligations.BinaryAddResult := by
  intro i s hi c a m sum r
  rw [exec_binaryAdd hi, binaryAdd_eq_addOfNumbers]
  rfl

/-- Settles O7: Subtract is Add on the complement, whose number is 255 minus the operand's. -/
theorem binarySubtractResult : Obligations.BinarySubtractResult := by
  intro i s hi c a m' sum r
  rw [exec_binarySubtract hi, binarySubtract, binaryAdd_eq_addOfNumbers, not8_toNat]
  rfl

/-- Bytes differ in bit 7 when one alone is from 128 on. -/
theorem bit7_ne_iff (a b : Byte) : bit7 a ≠ bit7 b ↔ ¬ (128 ≤ a.toNat ↔ 128 ≤ b.toNat) := by
  rw [ne_eq, Bool.eq_iff_iff, bit7_iff, bit7_iff]

/-- V is set when the result's sign differs from the sign of both operands (R90). -/
theorem overflowFlag_iff (a m : Byte) (n : Bool) : overflowFlag a m n = true ↔ bit7 a ≠ n ∧ bit7 m ≠ n := by
  simp [overflowFlag]

/-- R90, corner cases: the sum of two signed bytes and the carry leaves -128 to 127 only when both operands have one sign
and the result byte has the other. -/
theorem binaryAdd_overflow_iff (c : Bool) (a m : Byte) :
    (binaryAdd c a m).overflow = true ↔
      ¬ (-128 ≤ a.toInt + m.toInt + (c.toNat : Int) ∧ a.toInt + m.toInt + (c.toNat : Int) ≤ 127) := by
  have hr := binaryAdd_accumulator_toNat c a m
  have hc := c.toNat_le
  have ha := a.isLt
  have hm := m.isLt
  have hV : (binaryAdd c a m).overflow = overflowFlag a m (bit7 (binaryAdd c a m).accumulator) := rfl
  rw [hV, overflowFlag_iff, bit7_ne_iff, bit7_ne_iff, hr, BitVec.toInt_eq_toNat_cond, BitVec.toInt_eq_toNat_cond]
  split_ifs <;> omega

/-- Settles O8, by the signs of the operands and of the result byte. -/
theorem binaryAddOverflowIsSignedOverflow : Obligations.BinaryAddOverflowIsSignedOverflow := by
  intro i s hi
  exact ⟨_, exec_binaryAdd hi s, binaryAdd_overflow_iff _ _ _⟩

/-- C of a binary Subtract is set when no borrow leaves the byte (R91). -/
theorem binarySubtract_carry_iff (c : Bool) (a m : Byte) :
    (binarySubtract c a m).carry = true ↔ 0 ≤ (a.toNat : Int) - m.toNat - (1 - (c.toNat : Int)) := by
  have := m.isLt
  rw [binarySubtract, binaryAdd_carry_iff, not8_toNat]
  omega

/-- Settles O9: the byte is the binary difference of R110, and the sum of R91 is the difference plus 256. -/
theorem binarySubtractIsDifference : Obligations.BinarySubtractIsDifference := by
  intro i s hi diff
  refine ⟨_, exec_binarySubtract hi s, ?byte, binarySubtract_carry_iff _ _ _⟩
  rw [State.setAluOut_aluOut, binarySubtract_accumulator, binaryDifference_toNat]

/-- A binary Add that gives back the accumulator describes it by N and Z and leaves V clear (R92). -/
theorem binaryAdd_of_accumulator_eq {c : Bool} {a m : Byte} (h : (binaryAdd c a m).accumulator = a) :
    binaryAdd c a m = ⟨a, bit a.toNat 7, false, decide (a = 0#8), (binaryAdd c a m).carry⟩ := by
  have hflags : binaryAdd c a m = ⟨(binaryAdd c a m).accumulator, bit7 (binaryAdd c a m).accumulator,
      overflowFlag a m (bit7 (binaryAdd c a m).accumulator), zeroFlag (binaryAdd c a m).accumulator,
      (binaryAdd c a m).carry⟩ := rfl
  rw [h] at hflags
  rw [hflags, bit_toNat_seven, overflowFlag, Bool.xor_self, Bool.false_and]
  rfl

/-- R92, the identity pass: Add with operand 0 and carry 0. -/
theorem binaryAdd_identity (r : Byte) :
    binaryAdd false r 0#8 = ⟨r, bit r.toNat 7, false, decide (r = 0#8), false⟩ := by
  have hbyte : (binaryAdd false r 0#8).accumulator = r := by simp [binaryAdd]
  have hcarry : (binaryAdd false r 0#8).carry = false := by
    have hr : r.toNat ≤ 255 := Nat.le_of_lt_succ r.isLt
    simpa [binaryAdd, carryFlag] using hr
  rw [binaryAdd_of_accumulator_eq hbyte, hcarry]

/-- C5, the identity pass of Subtract: operand 0 and carry 1. -/
theorem binarySubtract_identity (r : Byte) :
    binarySubtract true r 0#8 = ⟨r, bit r.toNat 7, false, decide (r = 0#8), true⟩ := by
  have hbyte : (binarySubtract true r 0#8).accumulator = r := by
    simp [binarySubtract_accumulator, binaryDifference, borrowIn]
  have hcarry : (binarySubtract true r 0#8).carry = true := by simp [binarySubtract_carry_iff]
  rw [binarySubtract] at hbyte hcarry ⊢
  rw [binaryAdd_of_accumulator_eq hbyte, hcarry]

/-- C5: Subtract with operand 0 and a borrow takes 1 away. -/
theorem binarySubtract_zero_borrow (r : Byte) : (binarySubtract false r 0#8).accumulator = r - 1#8 := by
  simp [binarySubtract_accumulator, binaryDifference, borrowIn,
    Int.sub_eq_add_neg, BitVec.ofInt_add, BitVec.sub_eq_add_neg]

/-- Settles O10: the sum, Subtract as Add of the complement by definition, and the identity passes. -/
theorem binaryModeLaws : Obligations.BinaryModeLaws := by
  refine ⟨?sumAndCarry, ?addOfComplement, ?identity⟩
  case sumAndCarry =>
    intro i s hi sum
    exact ⟨_, exec_binaryAdd hi s, binaryAdd_accumulator_toNat _ _ _, binaryAdd_carry_iff _ _ _⟩
  case addOfComplement =>
    intro add sub s hpair
    have hadd := hpair.imp And.left And.left
    have hsub := hpair.imp And.right And.right
    exact ⟨_, _, exec_binarySubtract hsub s, exec_binaryAdd hadd _, rfl⟩
  case identity =>
    intro add sub s d hpair r result
    have hadd := hpair.imp And.left And.left
    have hsub := hpair.imp And.right And.right
    exact ⟨⟨_, exec_binaryAdd hadd _, binaryAdd_identity r⟩, ⟨_, exec_binarySubtract hsub _, binarySubtract_identity r⟩,
      ⟨_, exec_binarySubtract hsub _, binarySubtract_zero_borrow r⟩⟩

end Sys2Proof.Machine
end

section
/-! Decimal Add (obligations O11 to O14). -/

namespace Sys2Proof.Machine

open Sys2Proof.Spec

/-- The low-nibble sum of R100 on the numbers of the operands. -/
def lowNibbleSum (c a m : Nat) : Nat := a % 16 + m % 16 + c

/-- `h0` of R100 on the numbers of the operands: the low nibbles carry from ten on. -/
def highNibbleSum (c a m : Nat) : Nat := a / 16 + m / 16 + if lowNibbleSum c a m ≥ 10 then 1 else 0

/-- A nibble sum after the correction of R100 and the reduction of D1. -/
def correctedDigit (v : Nat) : Nat := (if v ≥ 10 then v - 10 else v) % 16

/-- `r` of R100 on the numbers of the operands. -/
def decimalSum (c a m : Nat) : Nat :=
  16 * correctedDigit (highNibbleSum c a m) + correctedDigit (lowNibbleSum c a m)

theorem correctSum_digit (v : Nat) : (correctSum v).digit = correctedDigit v := (correctSum_spec v).1

theorem addHighSum_eq (c : Bool) (a m : Byte) : addHighSum c a m = highNibbleSum c.toNat a.toNat m.toNat := by
  have hcarry : (addLow c a m).out.toNat = if lowNibbleSum c.toNat a.toNat m.toNat ≥ 10 then 1 else 0 := by
    rw [addLow, (correctSum_spec _).2, Bool.toNat, Bool.cond_decide]
    rfl
  rw [addHighSum, hcarry]
  rfl

theorem addResult_toNat (c : Bool) (a m : Byte) :
    (addResult c a m).toNat = decimalSum c.toNat a.toNat m.toNat := by
  rw [addResult, addHigh, addLow, concatNibbles_toNat (correctSum_digit_lt _) (correctSum_digit_lt _),
    correctSum_digit, correctSum_digit, addHighSum_eq]
  rfl

theorem addResult_eq_ofNat (c : Bool) (a m : Byte) :
    addResult c a m = BitVec.ofNat 8 (decimalSum c.toNat a.toNat m.toNat) := by
  rw [← addResult_toNat, BitVec.ofNat_toNat, BitVec.setWidth_eq]

theorem addHigh_out_eq (c : Bool) (a m : Byte) :
    (addHigh c a m).out = decide (highNibbleSum c.toNat a.toNat m.toNat > 9) := by
  rw [addHigh, (correctSum_spec _).2, addHighSum_eq]
  rfl

theorem addSign_eq (c : Bool) (a m : Byte) : addSign c a m = bit (highNibbleSum c.toNat a.toNat m.toNat) 3 := by
  rw [addSign, addHighSum_eq]
  rfl

theorem overflowFlag_eq_bit (a m : Byte) (n : Bool) :
    overflowFlag a m n = ((bit a.toNat 7 ^^ n) && (bit m.toNat 7 ^^ n)) := by
  rw [overflowFlag, bit_toNat_seven, bit_toNat_seven]

/-- Decimal Add on NMOS6502 is one function of `c`, `a`, `m` (R101). -/
theorem exec_decimalAddNmos (s : State) : exec .aluAddDecNmos s =
    .next (s.setAluOut (decimalAddNmos s.aluIn.initialCarry s.aluIn.accumulator s.aluIn.operand)) := rfl

/-- Decimal Add on CMOS65C02 is one function of `c`, `a`, `m` (R102). -/
theorem exec_decimalAddCmos (s : State) : exec .aluAddDecCmos s =
    .next (s.setAluOut (decimalAddCmos s.aluIn.initialCarry s.aluIn.accumulator s.aluIn.operand)) := rfl

/-- Settles O11, field by field: the nibble sums of the bytes are those of their numbers. -/
theorem decimalAddNmosResult : Obligations.DecimalAddNmosResult := by
  intro s c a m l l4 nc h0 hn3 h4
  rw [exec_decimalAddNmos, decimalAddNmos, addResult_eq_ofNat, overflowFlag_eq_bit, addSign_eq, addHigh_out_eq,
    binarySumZero]
  rfl

/-- Settles O12, field by field: N and Z are read off the number of the result byte. -/
theorem decimalAddCmosResult : Obligations.DecimalAddCmosResult := by
  intro s c a m l l4 nc h0 hn3 h4 r
  rw [exec_decimalAddCmos, decimalAddCmos, negativeFlag, ← bit_toNat_seven, zeroFlag_eq_decide, addResult_toNat,
    addResult_eq_ofNat, overflowFlag_eq_bit, addSign_eq, addHigh_out_eq]
  rfl

/-- The byte, V and C of decimal Add are one function of `c`, `a`, `m` on both variants (R100, R103). -/
theorem exec_decimalAdd {i : Instr} (hi : i = .aluAddDecNmos ∨ i = .aluAddDecCmos) (s : State) :
    ∃ r, exec i s = .next (s.setAluOut r) ∧
      r.accumulator = addResult s.aluIn.initialCarry s.aluIn.accumulator s.aluIn.operand ∧
      r.overflow = overflowFlag s.aluIn.accumulator s.aluIn.operand
        (addSign s.aluIn.initialCarry s.aluIn.accumulator s.aluIn.operand) ∧
      r.carry = (addHigh s.aluIn.initialCarry s.aluIn.accumulator s.aluIn.operand).out := by
  rcases hi with rfl | rfl
  · exact ⟨_, exec_decimalAddNmos s, rfl, rfl, rfl⟩
  · exact ⟨_, exec_decimalAddCmos s, rfl, rfl, rfl⟩

/-- The sum of two decimal digits and a carry is at most 19, and corrects to its last decimal digit. -/
theorem correctedDigit_eq_mod_ten {v : Nat} (h : v ≤ 19) : correctedDigit v = v % 10 := by
  unfold correctedDigit
  split_ifs <;> omega

/-- A byte of two decimal digits is valid BCD, and its decimal value is read off the digits (R14). -/
theorem bcd_of_digits {h l : Nat} (hh : h ≤ 9) (hl : l ≤ 9) :
    ValidBCD (16 * h + l) ∧ decimalValue (16 * h + l) = 10 * h + l := by
  unfold ValidBCD decimalValue
  omega

/-- R103 item 1 on numbers: each nibble sum is a column of the decimal addition, and the low column carries into the
high one. -/
theorem decimalSum_of_validBCD {c a m : Nat} (hc : c ≤ 1) (ha : ValidBCD a) (hm : ValidBCD m) :
    ValidBCD (decimalSum c a m) ∧
      decimalValue (decimalSum c a m) = (decimalValue a + decimalValue m + c) % 100 ∧
      (highNibbleSum c a m > 9 ↔ decimalValue a + decimalValue m + c > 99) := by
  obtain ⟨haLow, haHigh⟩ := ha
  obtain ⟨hmLow, hmHigh⟩ := hm
  have hlow : lowNibbleSum c a m ≤ 19 := by unfold lowNibbleSum; omega
  have hcarry : highNibbleSum c a m = a / 16 + m / 16 + lowNibbleSum c a m / 10 := by
    unfold highNibbleSum
    split_ifs <;> omega
  have hhigh : highNibbleSum c a m ≤ 19 := by omega
  have hcolumns : decimalValue a + decimalValue m + c = 10 * (a / 16 + m / 16) + lowNibbleSum c a m := by
    unfold decimalValue lowNibbleSum
    omega
  rw [decimalSum, correctedDigit_eq_mod_ten hlow, correctedDigit_eq_mod_ten hhigh]
  obtain ⟨hvalid, hvalue⟩ := bcd_of_digits (h := highNibbleSum c a m % 10) (l := lowNibbleSum c a m % 10)
    (by omega) (by omega)
  exact ⟨hvalid, by omega, by omega⟩

/-- Settles O13, from the decimal addition of the operands' numbers. -/
theorem decimalAddIsBcdAddition : Obligations.DecimalAddIsBcdAddition := by
  intro i s hi ha hm t
  obtain ⟨r, hexec, hbyte, -, hcarry⟩ := exec_decimalAdd hi s
  refine ⟨_, hexec, ?_⟩
  rw [State.setAluOut_aluOut, hbyte, hcarry, addResult_toNat, addHigh_out_eq, decide_eq_true_iff]
  exact decimalSum_of_validBCD s.aluIn.initialCarry.toNat_le ha hm

/-- Settles O14. The variants differ in N and Z at 0x99 + 0x01, where NMOS6502 gives a zero byte with Z clear; at
0x80 + 0x80 it gives 0x60 with Z set. -/
theorem decimalAddVariantsCompared : Obligations.DecimalAddVariantsCompared := by
  refine ⟨?agree, ?differ, ?zeroByteZClear, ?nonzeroByteZSet⟩
  case agree =>
    intro s
    obtain ⟨r, hexec, hbyte, hoverflow, hcarry⟩ := exec_decimalAdd (.inl rfl) s
    obtain ⟨r', hexec', hbyte', hoverflow', hcarry'⟩ := exec_decimalAdd (.inr rfl) s
    exact ⟨_, _, hexec, hexec', hbyte.trans hbyte'.symm, hoverflow.trans hoverflow'.symm, hcarry.trans hcarry'.symm⟩
  case differ =>
    exact ⟨State.reset.setAluIn ⟨false, 0x99#8, 0x01#8, true⟩, _, _, by unfold ValidBCD; decide,
      by unfold ValidBCD; decide, rfl, rfl, by decide, by decide⟩
  case zeroByteZClear => exact ⟨State.reset.setAluIn ⟨false, 0x99#8, 0x01#8, true⟩, _, rfl, by decide, by decide⟩
  case nonzeroByteZSet => exact ⟨State.reset.setAluIn ⟨false, 0x80#8, 0x80#8, true⟩, _, rfl, by decide, by decide⟩

end Sys2Proof.Machine
end

section
/-! Decimal Subtract (obligations O15 to O18). -/

namespace Sys2Proof.Machine

open Sys2Proof.Spec

/-- Decimal Subtract on NMOS6502 is one function of `c`, `a`, `m` (R110). -/
theorem exec_decimalSubtractNmos (s : State) : exec .aluSubDecNmos s =
    .next (s.setAluOut (decimalSubtractNmos s.aluIn.initialCarry s.aluIn.accumulator s.aluIn.operand)) := rfl

/-- The low-nibble difference of R110 on the numbers of the operands. -/
def lowNibbleDifference (c a m : Nat) : Int := ((a % 16 : Nat) : Int) - (m % 16 : Nat) - (1 - (c : Int))

/-- The high-nibble difference of R110 on the numbers of the operands: a negative low one borrows. -/
def highNibbleDifference (c a m : Nat) : Int :=
  ((a / 16 : Nat) : Int) - (m / 16 : Nat) - if lowNibbleDifference c a m < 0 then 1 else 0

theorem subLow_eq (c : Bool) (a m : Byte) :
    subLow c a m = correctDifference (lowNibbleDifference c.toNat a.toNat m.toNat) := rfl

theorem subHigh_eq (c : Bool) (a m : Byte) :
    subHigh c a m = correctDifference (highNibbleDifference c.toNat a.toNat m.toNat) := by
  have hborrow : ((subLow c a m).out.toNat : Int) =
      if lowNibbleDifference c.toNat a.toNat m.toNat < 0 then 1 else 0 := by
    rw [subLow_eq, (correctDifference_spec _).2, Bool.toNat, Bool.cond_decide]
    split_ifs <;> rfl
  rw [subHigh, hborrow]
  rfl

/-- The carry out is the complement of the borrow, which is set on a negative difference (R110). -/
theorem not_correctDifference_out (v : Int) : (!(correctDifference v).out) = decide (0 ≤ v) := by
  rw [(correctDifference_spec v).2, ← decide_not]
  exact decide_eq_decide.2 not_lt

/-- C of decimal Subtract is set when no borrow leaves the high nibble (R110). -/
theorem decimalSubtractNmos_carry (c : Bool) (a m : Byte) :
    (decimalSubtractNmos c a m).carry = decide (0 ≤ highNibbleDifference c.toNat a.toNat m.toNat) := by
  rw [decimalSubtractNmos, subHigh_eq, not_correctDifference_out]

theorem decimalSubtractNmos_accumulator_toNat (c : Bool) (a m : Byte) :
    (decimalSubtractNmos c a m).accumulator.toNat = 16 * (subHigh c a m).digit + (subLow c a m).digit :=
  concatNibbles_toNat (correctDifference_digit_lt _) (correctDifference_digit_lt _)

theorem concatNibbles_eq_ofInt (h l : Nat) : concatNibbles h l = BitVec.ofInt 8 (16 * (h : Int) + l) :=
  (BitVec.ofInt_natCast 8 (16 * h + l)).symm

/-- N of R110: the binary difference is at least 0x80. -/
theorem negativeFlag_binaryDifference (c : Bool) (a m : Byte) : negativeFlag (binaryDifference c a m) =
    decide (((a.toNat : Int) - m.toNat - (1 - (c.toNat : Int))) % 256 ≥ 0x80) := by
  rw [Bool.eq_iff_iff, decide_eq_true_iff, ← binaryDifference_toNat, negativeFlag, bit7_iff]
  exact Nat.ofNat_le_cast.symm

/-- Z of R110 with D18: the binary difference is zero modulo 256. -/
theorem zeroFlag_binaryDifference (c : Bool) (a m : Byte) : zeroFlag (binaryDifference c a m) =
    decide (((a.toNat : Int) - m.toNat - (1 - (c.toNat : Int))) % 256 = 0) := by
  rw [Bool.eq_iff_iff, decide_eq_true_iff, ← binaryDifference_toNat, zeroFlag_iff, Int.natCast_eq_zero]

/-- Settles O15, field by field: the nibble differences of the bytes are those of their numbers. -/
theorem decimalSubtractNmosResult : Obligations.DecimalSubtractNmosResult := by
  intro s c a m d8 n l b1 l4 h h4
  rw [exec_decimalSubtractNmos, decimalSubtractNmos, concatNibbles_eq_ofInt, subHigh_eq, subLow_eq,
    (correctDifference_spec _).1, (correctDifference_spec _).1, not_correctDifference_out, overflowFlag_eq_bit, not8_toNat,
    negativeFlag_binaryDifference, zeroFlag_binaryDifference]
  rfl

/-- The borrow chain of the nibbles borrows exactly when the bytes do, whatever digits they hold. -/
theorem highNibbleDifference_nonneg_iff {c : Nat} (hc : c ≤ 1) (a m : Nat) :
    0 ≤ highNibbleDifference c a m ↔ 0 ≤ (a : Int) - m - (1 - (c : Int)) := by
  unfold highNibbleDifference lowNibbleDifference
  split_ifs <;> omega

/-- Settles O16: N, V and Z are read off the byte of the binary Subtract, and C off the same borrow. -/
theorem decimalSubtractNmosFlagsAreBinary : Obligations.DecimalSubtractNmosFlagsAreBinary := by
  intro s
  refine ⟨_, _, exec_decimalSubtractNmos s, exec_binarySubtract (.inl rfl) s, ?negative, ?overflow, ?zero, ?carry⟩
  case negative => exact congrArg negativeFlag (binarySubtract_accumulator _ _ _).symm
  case overflow => exact congrArg (overflowFlag _ _) (congrArg negativeFlag (binarySubtract_accumulator _ _ _).symm)
  case zero => exact congrArg zeroFlag (binarySubtract_accumulator _ _ _).symm
  case carry =>
    rw [Bool.eq_iff_iff, State.setAluOut_aluOut, State.setAluOut_aluOut, binarySubtract_carry_iff,
      decimalSubtractNmos_carry, decide_eq_true_iff]
    exact highNibbleDifference_nonneg_iff (Bool.toNat_le _) _ _

/-- The difference of two decimal digits and a borrow is at least -10, and corrects to its last decimal digit. -/
theorem correctDifference_digit_eq_emod_ten {v : Int} (hlow : -10 ≤ v) (hhigh : v ≤ 9) :
    ((correctDifference v).digit : Int) = v % 10 := by
  rw [(correctDifference_spec v).1]
  split_ifs <;> omega

/-- On valid BCD operands each nibble difference is one of two decimal digits and a borrow, and the low column borrows from
the high one (R111). -/
theorem nibbleDifferences_of_validBCD {c a m : Nat} (hc : c ≤ 1) (ha : ValidBCD a) (hm : ValidBCD m) :
    (-10 ≤ lowNibbleDifference c a m ∧ lowNibbleDifference c a m ≤ 9) ∧
    (-10 ≤ highNibbleDifference c a m ∧ highNibbleDifference c a m ≤ 9) ∧
    (decimalValue a : Int) - decimalValue m - (1 - (c : Int)) =
      10 * highNibbleDifference c a m + lowNibbleDifference c a m % 10 := by
  obtain ⟨haLow, haHigh⟩ := ha
  obtain ⟨hmLow, hmHigh⟩ := hm
  unfold highNibbleDifference lowNibbleDifference decimalValue
  split_ifs <;> omega

/-- R111 on bytes: the corrected nibble differences are the digits of the decimal difference. -/
theorem decimalSubtractNmos_of_validBCD {c : Bool} {a m : Byte} (ha : ValidBCD a.toNat) (hm : ValidBCD m.toNat) :
    ValidBCD (decimalSubtractNmos c a m).accumulator.toNat ∧
      (decimalValue (decimalSubtractNmos c a m).accumulator.toNat : Int) =
        ((decimalValue a.toNat : Int) - decimalValue m.toNat - (1 - (c.toNat : Int))) % 100 ∧
      ((decimalSubtractNmos c a m).carry = true ↔
        0 ≤ (decimalValue a.toNat : Int) - decimalValue m.toNat - (1 - (c.toNat : Int))) := by
  obtain ⟨⟨hlow, hlow'⟩, ⟨hhigh, hhigh'⟩, hcolumns⟩ := nibbleDifferences_of_validBCD c.toNat_le ha hm
  have hl := correctDifference_digit_eq_emod_ten hlow hlow'
  have hh := correctDifference_digit_eq_emod_ten hhigh hhigh'
  rw [← subLow_eq] at hl
  rw [← subHigh_eq] at hh
  obtain ⟨hvalid, hvalue⟩ := bcd_of_digits (h := (subHigh c a m).digit) (l := (subLow c a m).digit)
    (by omega) (by omega)
  rw [decimalSubtractNmos_accumulator_toNat, decimalSubtractNmos_carry, decide_eq_true_iff]
  exact ⟨hvalid, by omega, by omega⟩

/-- Settles O17, from the decimal difference of the operands' digits. -/
theorem decimalSubtractIsBcdSubtraction : Obligations.DecimalSubtractIsBcdSubtraction := by
  intro s ha hm t
  exact ⟨_, exec_decimalSubtractNmos s, decimalSubtractNmos_of_validBCD ha hm⟩

/-- Settles O18: the invocation writes the parameter's result to the output of the ALU, whatever it is (R112, D2). -/
theorem decimalSubtractCmosIsTheParameter : Obligations.DecimalSubtractCmosIsTheParameter :=
  aluCompute_eq Config.cmosSbcDec

end Sys2Proof.Machine
end

section
/-! The store unit on the numbers of its bytes, and its shared algorithm (obligation O27). -/

namespace Sys2Proof.Machine

theorem concatBytes_toNat (hiByte loByte : Byte) :
    (concatBytes hiByte loByte).toNat = loByte.toNat + 256 * hiByte.toNat := by
  rw [concatBytes, BitVec.toNat_append, ← Nat.shiftLeft_add_eq_or_of_lt loByte.isLt, Nat.shiftLeft_eq]
  omega

theorem pageZero_toNat (zp : Byte) : (pageZero zp).toNat = zp.toNat := by
  simp [pageZero, concatBytes_toNat]

/-- The pointer of R123 wraps in page zero (D6). -/
theorem pageZero_succ_toNat (zp : Byte) : (pageZero (zp + 1#8)).toNat = (zp.toNat + 1) % 256 := by
  rw [pageZero_toNat, BitVec.toNat_add]
  rfl

/-- `ea_lo` of R124 on the numbers of the operands. -/
theorem lowAddress_toNat (baseLo index : Byte) :
    (lowAddress baseLo index).toNat = (baseLo.toNat + index.toNat) % 256 :=
  BitVec.toNat_ofNat _ 8

/-- `read_ea` of R124 on the numbers of the operands. -/
theorem readAddress_toNat (baseLo baseHi index : Byte) : (readAddress baseLo baseHi index).toNat =
    (baseLo.toNat + index.toNat) % 256 + 256 * baseHi.toNat := by
  rw [readAddress, concatBytes_toNat, lowAddress_toNat]

/-- `write_value` of R125 on the numbers of the operands. -/
theorem writeValue_toNat (baseHi regs : Byte) :
    (writeValue baseHi regs).toNat = (baseHi.toNat + 1) % 256 &&& regs.toNat := by
  rw [writeValue, highIncremented, BitVec.toNat_and, BitVec.toNat_add]
  rfl

/-- `write_addr` of R126 on the numbers of the operands. -/
theorem writeAddress_toNat (baseLo baseHi index regs : Byte) : (writeAddress baseLo baseHi index regs).toNat =
    (baseLo.toNat + index.toNat) % 256 + 256 *
      (if baseLo.toNat + index.toNat > 255 then (baseHi.toNat + 1) % 256 &&& regs.toNat else baseHi.toNat) := by
  rw [writeAddress, concatBytes_toNat, lowAddress_toNat, apply_ite BitVec.toNat, writeValue_toNat]
  simp [pageCross, lowSum]

/-- The store unit completes where its fetch answers and the dummy read's address is mapped (R124 to R127). -/
theorem storeUnit_of_fetchBase {format : Format} {index : IndexReg} {source : ValueSource} {s fetched : State}
    {base : Base} {dummy : Byte} (hf : format ≠ .aluSel) (hv : s.variant = .nmos6502)
    (hfetch : fetchBase format (s.setTrace []) = .ok (base, fetched))
    (hdummy : s.mem.read (readAddress base.lo base.hi (indexValue index s)).toNat = some dummy) :
    storeUnit format index source s =
      .next (((fetched.setS (if source = .sFromAX then s.A &&& s.X else s.S)).setMem
          (s.mem.write (writeAddress base.lo base.hi (indexValue index s) (regsOf source s)).toNat
            (writeValue base.hi (regsOf source s)))).setTrace
        (fetched.trace ++ [⟨readAddress base.lo base.hi (indexValue index s), dummy, .read⟩,
          ⟨writeAddress base.lo base.hi (indexValue index s) (regsOf source s), writeValue base.hi (regsOf source s),
            .write⟩])) := by
  refine storeUnit_next.2 ⟨hv, base, fetched, hfetch, storeAt_ok.2 ⟨dummy, ?_⟩⟩
  obtain ⟨reads, -, -, rfl⟩ := fetchBase_ok hf hfetch
  simp only [indexValue_setTrace, indexValue_setPC, regsOf_setTrace, regsOf_setPC]
  exact ⟨hdummy, rfl⟩

/-- Both operand fetches, from an empty trace, leave one Read for each byte they take (R122, R123). -/
theorem fetchBase_trace_length {format : Format} {s fetched : State} {base : Base} (hf : format ≠ .aluSel)
    (hfetch : fetchBase format (s.setTrace []) = .ok (base, fetched)) :
    fetched.trace.length = if format = .zpy then 4 else 3 := by
  obtain ⟨reads, hlength, -, rfl⟩ := fetchBase_ok hf hfetch
  exact hlength

/-- The value-source column of R74, which is R125's list. -/
theorem storeForm_of_valueSource : ∀ p ∈ [(Instr.shaZpY, ValueSource.aAndX), (.shaAbsY, .aAndX), (.tasAbsY, .sFromAX),
    (.shyAbsX, .y), (.shxAbsY, .x)], ∃ format index, storeForm p.1 = some (format, index, p.2) := by
  intro p hp
  fin_cases hp <;> exact ⟨_, _, rfl⟩

/-- Settles O27: the addresses and the value of the shared algorithm, on the numbers of the bytes. -/
theorem sharedAlgorithmOfTheStores : Obligations.SharedAlgorithmOfTheStores := by
  refine ⟨?sources, ?algorithm⟩
  case sources =>
    intro p hp
    obtain ⟨format, index, hform⟩ := storeForm_of_valueSource p hp
    exact ⟨format, index, (storeForm_format hform).1, exec_store hform⟩
  case algorithm =>
    intro format index source s fetched base dummy hf hv hfetch sumLo h1 readEa hdummy newS regs writeVal writeAddr
    have hnewS : newS = if source = .sFromAX then s.A &&& s.X else s.S := by cases source <;> rfl
    have hregs : regs = regsOf source s := by cases source <;> rfl
    have hreadEa : readEa = (readAddress base.lo base.hi (indexValue index s)).toNat := (readAddress_toNat ..).symm
    have hwriteVal : writeVal = (writeValue base.hi (regsOf source s)).toNat := by rw [writeValue_toNat, ← hregs]
    have hwriteAddr : writeAddr = (writeAddress base.lo base.hi (indexValue index s) (regsOf source s)).toNat := by
      rw [writeAddress_toNat, ← hregs]
      rfl
    refine ⟨fetchBase_trace_length hf hfetch, ?_⟩
    rw [hreadEa] at hdummy
    rw [storeUnit_of_fetchBase hf hv hfetch hdummy, hnewS, hreadEa, hwriteVal, hwriteAddr]
    simp only [BitVec.ofNat_toNat, BitVec.setWidth_eq]
    rfl

end Sys2Proof.Machine
end

section
/-! The result of each opcode class (obligations O22 to O26). -/

namespace Sys2Proof.Machine

/-- What the fetch of R122 answers, from the bytes at PC. -/
theorem fetchBase_abs_of_reads {s : State} {opcode baseLo baseHi : Byte} (hopcode : s.mem.read s.PC.toNat = some opcode)
    (hlo : s.mem.read (s.PC + 1#16).toNat = some baseLo) (hhi : s.mem.read (s.PC + 2#16).toNat = some baseHi) :
    fetchBase .abs (s.setTrace []) = .ok (⟨baseLo, baseHi⟩, (s.setPC (s.PC + 3#16)).setTrace
      [⟨s.PC, opcode, .read⟩, ⟨s.PC + 1#16, baseLo, .read⟩, ⟨s.PC + 2#16, baseHi, .read⟩]) := by
  have htwo : s.PC + 1#16 + 1#16 = s.PC + 2#16 := BitVec.add_assoc ..
  have hthree : s.PC + 2#16 + 1#16 = s.PC + 3#16 := BitVec.add_assoc ..
  refine fetchAbs_ok.2 ⟨opcode, hopcode, hlo, ?_⟩
  simp only [State.setTrace_PC, State.setTrace_mem, htwo, hthree, absReads]
  exact ⟨hhi, rfl⟩

/-- What the fetch of R123 answers, from the bytes at PC and at the pointer in page zero. -/
theorem fetchBase_zpy_of_reads {s : State} {opcode zp baseLo baseHi : Byte}
    (hopcode : s.mem.read s.PC.toNat = some opcode) (hzp : s.mem.read (s.PC + 1#16).toNat = some zp)
    (hlo : s.mem.read zp.toNat = some baseLo) (hhi : s.mem.read ((zp.toNat + 1) % 256) = some baseHi) :
    fetchBase .zpy (s.setTrace []) = .ok (⟨baseLo, baseHi⟩, (s.setPC (s.PC + 2#16)).setTrace
      [⟨s.PC, opcode, .read⟩, ⟨s.PC + 1#16, zp, .read⟩, ⟨BitVec.ofNat 16 zp.toNat, baseLo, .read⟩,
        ⟨BitVec.ofNat 16 ((zp.toNat + 1) % 256), baseHi, .read⟩]) := by
  have htwo : s.PC + 1#16 + 1#16 = s.PC + 2#16 := BitVec.add_assoc ..
  rw [← pageZero_toNat] at hlo
  rw [← pageZero_succ_toNat] at hhi
  refine fetchZpy_ok.2 ⟨opcode, zp, hopcode, hzp, hlo, hhi, ?_⟩
  rw [← pageZero_succ_toNat, ← pageZero_toNat, State.setTrace_PC, htwo]
  simp only [BitVec.ofNat_toNat, BitVec.setWidth_eq]
  rfl

/-- Settles O22, by the shared algorithm on the fetch of R123. -/
theorem shaZpYResult : Obligations.ShaZpYResult := by
  intro s opcode zp baseLo baseHi dummy hv hopcode hzp hlo hhi sumLo h1 hdummy value addr
  obtain ⟨-, hexec⟩ := sharedAlgorithmOfTheStores.2 .zpy .y .aAndX s _ _ dummy (by decide) hv
    (fetchBase_zpy_of_reads hopcode hzp hlo hhi) hdummy
  rw [BitVec.toNat_and, ← Nat.and_assoc] at hexec
  exact hexec

/-- Settles O23, by the shared algorithm on the fetch of R122. -/
theorem shaAbsYResult : Obligations.ShaAbsYResult := by
  intro s opcode baseLo baseHi dummy hv hopcode hlo hhi sumLo h1 hdummy value addr
  obtain ⟨-, hexec⟩ := sharedAlgorithmOfTheStores.2 .abs .y .aAndX s _ _ dummy (by decide) hv
    (fetchBase_abs_of_reads hopcode hlo hhi) hdummy
  rw [BitVec.toNat_and, ← Nat.and_assoc] at hexec
  exact hexec

/-- Settles O24: the value written is the new S, whose number is that of A AND X. -/
theorem tasAbsYResult : Obligations.TasAbsYResult := by
  intro s opcode baseLo baseHi dummy hv hopcode hlo hhi sumLo h1 hdummy newS value addr
  obtain ⟨-, hexec⟩ := sharedAlgorithmOfTheStores.2 .abs .y .sFromAX s _ _ dummy (by decide) hv
    (fetchBase_abs_of_reads hopcode hlo hhi) hdummy
  have hnewS : s.A &&& s.X = BitVec.ofNat 8 (s.A.toNat &&& s.X.toNat) := by
    rw [← BitVec.toNat_and, BitVec.ofNat_toNat, BitVec.setWidth_eq]
  rw [BitVec.toNat_and, hnewS] at hexec
  exact hexec

/-- Settles O25, by the shared algorithm on the fetch of R122. -/
theorem shyAbsXResult : Obligations.ShyAbsXResult := by
  intro s opcode baseLo baseHi dummy hv hopcode hlo hhi sumLo h1 hdummy value addr
  exact (sharedAlgorithmOfTheStores.2 .abs .x .y s _ _ dummy (by decide) hv
    (fetchBase_abs_of_reads hopcode hlo hhi) hdummy).2

/-- Settles O26, by the shared algorithm on the fetch of R122. -/
theorem shxAbsYResult : Obligations.ShxAbsYResult := by
  intro s opcode baseLo baseHi dummy hv hopcode hlo hhi sumLo h1 hdummy value addr
  exact (sharedAlgorithmOfTheStores.2 .abs .y .x s _ _ dummy (by decide) hv
    (fetchBase_abs_of_reads hopcode hlo hhi) hdummy).2

end Sys2Proof.Machine
end

section
/-! What a store leaves behind and where its Write lands (obligations O28, O30). -/

namespace Sys2Proof.Machine

open Sys2Proof.Spec

/-- The table of the opcode classes gives each its store-unit parameters (R74). -/
theorem storeForm_of_mem_storeTable {i : Instr} {format : Format} {index : IndexReg} {source : ValueSource}
    (h : (i, format, index, source) ∈ storeTable) : storeForm i = some (format, index, source) := by
  have htable : ∀ p ∈ storeTable, storeForm p.1 = some p.2 := by decide
  exact htable _ h

/-- TAS alone has the value source that replaces S (R74, R125). -/
theorem storeForm_sFromAX_iff {i : Instr} {format : Format} {index : IndexReg} {source : ValueSource}
    (h : storeForm i = some (format, index, source)) : source = .sFromAX ↔ i = .tasAbsY := by
  cases i <;> cases h <;> decide

/-- A store fetch moves PC by the length of the instruction (R73). -/
theorem pcAdvance_of_store {format : Format} (hf : format ≠ .aluSel) :
    pcAdvance format = if format = .zpy then 2#16 else 3#16 := by
  cases format with
  | aluSel => exact absurd rfl hf
  | zpy => rfl
  | abs => rfl

/-- Settles O28, from what a completed store has done. -/
theorem storeUnitFrame : Obligations.StoreUnitFrame := by
  intro i format index source hi s t h
  have hform := storeForm_of_mem_storeTable hi
  have hf := (storeForm_format hform).1
  rw [exec_store hform] at h
  obtain ⟨base, fetched, reads, dummy, -, hfetch, -, -, -, rfl⟩ := storeUnit_effect hf h
  refine ⟨rfl, rfl, rfl, rfl, ?newS, rfl, rfl, rfl, rfl, rfl, rfl, ?pc, rfl, rfl, rfl, base, fetched, hfetch, ?written,
    ?otherAddresses⟩
  case newS => simp [storeForm_sFromAX_iff hform]
  case pc => simp [pcAdvance_of_store hf]
  case written => exact Memory.read_write_same ..
  case otherAddresses => exact fun a ha => Memory.read_write_other s.mem _ ha

/-- R126: without a page cross the Write is at the dummy read's address. -/
theorem writeAddress_of_le {baseLo index : Byte} (h : baseLo.toNat + index.toNat ≤ 255) (baseHi regs : Byte) :
    writeAddress baseLo baseHi index regs = readAddress baseLo baseHi index := by
  simp [writeAddress, readAddress, pageCross, lowSum, not_lt.2 h]

/-- R124: without a page cross the dummy read's address is `base + index`. -/
theorem readAddress_toNat_of_le {baseLo index : Byte} (h : baseLo.toNat + index.toNat ≤ 255) (baseHi : Byte) :
    (readAddress baseLo baseHi index).toNat = 256 * baseHi.toNat + baseLo.toNat + index.toNat := by
  rw [readAddress_toNat]
  omega

/-- R177: on a page cross the Write is at `base + index` exactly when the value written is `h1`, the high byte that
`base + index` has. -/
theorem writeAddress_eq_ordinary_iff {baseLo index : Byte} (h : baseLo.toNat + index.toNat > 255) (baseHi regs : Byte) :
    (writeAddress baseLo baseHi index regs).toNat = (256 * baseHi.toNat + baseLo.toNat + index.toNat) % 65536 ↔
      writeValue baseHi regs = highIncremented baseHi := by
  have hvalue : writeValue baseHi regs = highIncremented baseHi ↔
      (writeValue baseHi regs).toNat = (baseHi.toNat + 1) % 256 := BitVec.toNat_inj.symm
  have hlo := baseLo.isLt
  have hindex := index.isLt
  rw [hvalue, writeAddress_toNat, if_pos h, ← writeValue_toNat]
  omega

/-- The base address the fetch of R122 answers is that of the bytes at PC+1 and PC+2. -/
theorem fetchBase_abs_base {s fetched : State} {base : Base} {baseLo baseHi : Byte}
    (hfetch : fetchBase .abs (s.setTrace []) = .ok (base, fetched))
    (hlo : s.mem.read (s.PC + 1#16).toNat = some baseLo) (hhi : s.mem.read (s.PC + 2#16).toNat = some baseHi) :
    base = ⟨baseLo, baseHi⟩ := by
  obtain ⟨opcode, hopcode, -⟩ := fetchAbs_ok.1 hfetch
  cases hfetch.symm.trans (fetchBase_abs_of_reads hopcode hlo hhi)
  rfl

/-- The base address the fetch of R123 answers is that of the bytes at the pointer in page zero. -/
theorem fetchBase_zpy_base {s fetched : State} {base : Base} {zp baseLo baseHi : Byte}
    (hfetch : fetchBase .zpy (s.setTrace []) = .ok (base, fetched)) (hzp : s.mem.read (s.PC + 1#16).toNat = some zp)
    (hlo : s.mem.read zp.toNat = some baseLo) (hhi : s.mem.read ((zp.toNat + 1) % 256) = some baseHi) :
    base = ⟨baseLo, baseHi⟩ := by
  obtain ⟨opcode, _, hopcode, -⟩ := fetchZpy_ok.1 hfetch
  cases hfetch.symm.trans (fetchBase_zpy_of_reads hopcode hzp hlo hhi)
  rfl

/-- Settles O30, from the write address on the base that the fetch gives. -/
theorem whereTheWriteLands : Obligations.WhereTheWriteLands := by
  intro i format index source hi s t baseLo baseHi h hbytes ordinary regs h1
  have hform := storeForm_of_mem_storeTable hi
  rw [exec_store hform] at h
  obtain ⟨base, fetched, reads, dummy, -, hfetch, -, -, -, rfl⟩ := storeUnit_effect (storeForm_format hform).1 h
  obtain rfl : base = ⟨baseLo, baseHi⟩ := by
    rcases hbytes with ⟨rfl, hlo, hhi⟩ | ⟨rfl, zp, hzp, hlo, hhi⟩
    · exact fetchBase_abs_base hfetch hlo hhi
    · exact fetchBase_zpy_base hfetch hzp hlo hhi
  refine ⟨reads, readAddress baseLo baseHi (indexValue index s), writeAddress baseLo baseHi (indexValue index s) regs,
    dummy, writeValue baseHi regs, rfl, rfl, ?samePage, ?pageCross⟩
  case samePage =>
    intro hle
    have haddr := writeAddress_of_le hle baseHi regs
    exact ⟨haddr, (congrArg BitVec.toNat haddr).trans (readAddress_toNat_of_le hle baseHi)⟩
  case pageCross => exact fun hgt => writeAddress_eq_ordinary_iff hgt baseHi regs

end Sys2Proof.Machine
end

section
/-! What has no influence on a store (obligations O31 to O33). -/

namespace Sys2Proof.Machine

/-- The operand fetch reads memory at the addresses of its Reads and nowhere else: on any memory that agrees there it does
the same. -/
theorem fetchBase_setMem {format : Format} {s fetched : State} {base : Base} {m : Memory} (hf : format ≠ .aluSel)
    (hfetch : fetchBase format s = .ok (base, fetched))
    (hagree : ∀ c ∈ fetched.trace, m.read c.address.toNat = s.mem.read c.address.toNat) :
    fetchBase format (s.setMem m) = .ok (base, fetched.setMem m) := by
  cases format with
  | aluSel => exact absurd rfl hf
  | zpy =>
    obtain ⟨opcode, zp, hopcode, hzp, hlo, hhi, rfl⟩ := fetchZpy_ok.1 hfetch
    have hreads : ∀ c ∈ zpyReads s.PC opcode zp base, m.read c.address.toNat = s.mem.read c.address.toNat :=
      fun c hc => hagree c (List.mem_append_right _ hc)
    simp only [zpyReads, List.forall_mem_cons] at hreads
    obtain ⟨hopcode', hzp', hlo', hhi', -⟩ := hreads
    exact fetchZpy_ok.2 ⟨opcode, zp, hopcode'.trans hopcode, hzp'.trans hzp, hlo'.trans hlo, hhi'.trans hhi, rfl⟩
  | abs =>
    obtain ⟨opcode, hopcode, hlo, hhi, rfl⟩ := fetchAbs_ok.1 hfetch
    have hreads : ∀ c ∈ absReads s.PC opcode base, m.read c.address.toNat = s.mem.read c.address.toNat :=
      fun c hc => hagree c (List.mem_append_right _ hc)
    simp only [absReads, List.forall_mem_cons] at hreads
    obtain ⟨hopcode', hlo', hhi', -⟩ := hreads
    exact fetchAbs_ok.2 ⟨opcode, hopcode'.trans hopcode, hlo'.trans hlo, hhi'.trans hhi, rfl⟩

/-- One byte of memory, changed before a write, changes no read of another address and none of the address written. -/
theorem Memory.read_write_write {a a' x : Nat} (hx : x ≠ a ∨ x = a') (m : Memory) (b v : Byte) :
    ((m.write a b).write a' v).read x = (m.write a' v).read x := by
  rcases hx with hne | rfl
  · simp only [Memory.read_write, if_neg hne]
  · simp only [Memory.read_write_same]

@[simp] theorem indexValue_setMem (index : IndexReg) (s : State) (m : Memory) :
    indexValue index (s.setMem m) = indexValue index s := by cases index <;> rfl

@[simp] theorem regsOf_setMem (source : ValueSource) (s : State) (m : Memory) :
    regsOf source (s.setMem m) = regsOf source s := by cases source <;> rfl

/-- Settles O31: the fetch reads none of the changed byte, and the shared algorithm uses the dummy byte in its own cycle
alone. -/
theorem dummyByteReachesOnlyTheTrace : Obligations.DummyByteReachesOnlyTheTrace := by
  intro i hi s t pre addr d w h htrace hpre b mem
  obtain ⟨⟨format, index, source⟩, hform⟩ := Option.ne_none_iff_exists'.1 (mem_storeInstrs_iff.1 hi)
  have hf : format ≠ .aluSel := (storeForm_format hform).1
  rw [exec_store hform] at h ⊢
  obtain ⟨base, fetched, -, dummy, hv, hfetch, -, -, hdummy, -⟩ := storeUnit_effect hf h
  have hnext := storeUnit_of_fetchBase (source := source) hf hv hfetch hdummy
  obtain rfl := Host.Outcome.next.inj (h.symm.trans hnext)
  obtain ⟨rfl, hlast⟩ := List.append_inj' htrace rfl
  cases hlast
  refine ⟨?sameButTheByte, fun a ha => Memory.read_write_write ha ..⟩
  case sameButTheByte =>
    have hfetch' := fetchBase_setMem hf hfetch fun c hc =>
      Memory.read_write_other s.mem b fun heq => hpre c hc (BitVec.eq_of_toNat_eq heq)
    have hnext' := storeUnit_of_fetchBase (index := index) (source := source) (dummy := b)
      (s := s.setMem (s.mem.write _ b)) hf hv hfetch' (by simp)
    simp only [indexValue_setMem, regsOf_setMem] at hnext'
    exact hnext'

theorem memRead_setS (addr : Addr) (s : State) (v : Byte) :
    memRead addr (s.setS v) = (memRead addr s).map (Prod.map id (State.setS · v)) := by
  unfold memRead
  rw [State.setS_mem]
  cases s.mem.read addr.toNat <;> rfl

theorem fetchByte_setS (s : State) (v : Byte) :
    fetchByte (s.setS v) = (fetchByte s).map (Prod.map id (State.setS · v)) := by
  unfold fetchByte
  rw [State.setS_PC, memRead_setS]
  cases memRead s.PC s <;> rfl

/-- The fetch of R122 carries S along, also where it is refused. -/
theorem fetchAbs_setS (s : State) (v : Byte) :
    fetchAbs (s.setS v) = (fetchAbs s).map (Prod.map id (State.setS · v)) := by
  unfold fetchAbs
  rw [fetchByte_setS]
  rcases fetchByte s with r | ⟨opcode, s1⟩
  · rfl
  · simp only [Except.map, Prod.map, fetchByte_setS]
    rcases fetchByte s1 with r | ⟨baseLo, s2⟩
    · rfl
    · simp only [fetchByte_setS]
      rcases fetchByte s2 with r | ⟨baseHi, s3⟩ <;> rfl

/-- With the value source of TAS the store overwrites S before it reads it (R125). -/
theorem storeAt_sFromAX_setS (index : IndexReg) (base : Base) (s : State) (v : Byte) :
    storeAt index .sFromAX base (s.setS v) = storeAt index .sFromAX base s := by
  have hindex : indexValue index (s.setS v) = indexValue index s := by cases index <;> rfl
  unfold storeAt
  rw [hindex, memRead_setS]
  rcases memRead (readAddress base.lo base.hi (indexValue index s)) s with r | ⟨dummy, s1⟩
  · rfl
  · cases index <;> rfl

/-- On the format and the value source of TAS the old S reaches nothing (R131): the fetch carries it along, and the store
overwrites it. -/
theorem storeUnit_abs_sFromAX_setS (index : IndexReg) (s : State) (v : Byte) :
    storeUnit .abs index .sFromAX (s.setS v) = storeUnit .abs index .sFromAX s := by
  have hfetch : fetchBase .abs ((s.setS v).setTrace []) = _ := fetchAbs_setS (s.setTrace []) v
  unfold storeUnit
  rw [State.setS_variant, hfetch]
  cases s.variant with
  | cmos65c02 => rfl
  | nmos6502 =>
    rw [fetchBase]
    rcases fetchAbs (s.setTrace []) with r | ⟨base, s1⟩
    · rfl
    · simp only [Except.map, Prod.map, storeAt_sFromAX_setS, id]

/-- Settles O32: the fetch carries the old S along, and the store overwrites it. -/
theorem tasIgnoresOldS : Obligations.TasIgnoresOldS := by
  intro s old
  exact storeUnit_abs_sFromAX_setS .y s old

/-- A store whose value source is an index register does not read A (R125, R132, R133). -/
theorem storeUnit_setA {format : Format} {index : IndexReg} {source : ValueSource} {s t : State}
    (hf : format ≠ .aluSel) (hsource : source = .x ∨ source = .y) (h : storeUnit format index source s = .next t)
    (a : Byte) : storeUnit format index source { s with A := a } = .next { t with A := a } := by
  have hA : storeUnit format index source { s with A := a } = _ :=
    storeUnit_congr hf h rfl rfl rfl (by cases index <;> rfl) (by rcases hsource with rfl | rfl <;> rfl)
  obtain ⟨base, fetched, reads, dummy, -, -, -, -, -, rfl⟩ := storeUnit_effect hf h
  rcases hsource with rfl | rfl <;> exact hA

/-- Settles O33: the value source of SHY is Y, that of SHX is X. -/
theorem shyAndShxIgnoreA : Obligations.ShyAndShxIgnoreA := by
  intro i hi s t a h
  simp only [List.mem_cons, List.not_mem_nil, or_false] at hi
  rcases hi with rfl | rfl
  · exact storeUnit_setA (by decide) (.inr rfl) h a
  · exact storeUnit_setA (by decide) (.inl rfl) h a

end Sys2Proof.Machine
end

section
/-! The store unit on CMOS65C02 (obligation O35). -/

namespace Sys2Proof.Machine

/-- R121: on CMOS65C02 a store is refused before anything is read. -/
theorem exec_store_cmos {i : Instr} {s : State} (hi : storeForm i ≠ none) (hv : s.variant = .cmos65c02) :
    exec i s = .refused .storeUnitOnCMOS := by
  obtain ⟨⟨format, index, source⟩, hform⟩ := Option.ne_none_iff_exists'.1 hi
  simp [exec_store hform, storeUnit, hv, refuse]

/-- R152: an `execute` is refused on CMOS65C02 before its class code is decoded. -/
theorem select_execute_cmos {s : State} (hv : s.variant = .cmos65c02) (code : BitVec 3) :
    select (.execute code) s = .error .storeUnitOnCMOS := by
  simp [select, hv]

/-- Settles O35, by the form of the invocation. -/
theorem storeUnitRefusedOnCmos : Obligations.StoreUnitRefusedOnCmos := by
  intro s hv
  refine ⟨fun i hi => exec_store_cmos (mem_storeInstrs_iff.1 hi) hv, ?execute, ?dispatch⟩
  case execute =>
    intro code rest hprogram
    rw [step_cons hprogram]
    exact invoke_refused.2 (.inl (select_execute_cmos (s := s.setProgram rest) hv code))
  case dispatch =>
    intro opcode rest hprogram hread hopcode
    rcases decodeOpcode_cases opcode with ⟨-, i, hi, hstore, -⟩ | ⟨hnot, -⟩
    · rw [step_cons hprogram]
      exact invoke_refused.2
        (.inr ⟨i, s.setProgram rest, select_dispatch_of_decode_ok hread hi, exec_store_cmos hstore hv⟩)
    · exact absurd hopcode hnot

end Sys2Proof.Machine
end

section
/-! No instruction faults, and a program the caller states in full runs to its end (obligations O42, O44). -/

namespace Sys2Proof.Machine

/-- Settles O42: no outcome of an instruction is a fault, and the store unit alone refuses one. -/
theorem noInstructionFaults : Obligations.NoInstructionFaults := by
  intro i s
  rcases exec_next_or_refused i s with hnext | ⟨r, hr⟩
  · exact .inl hnext
  · rcases exec_refused hr with ⟨-, rfl⟩ | ⟨a, rfl, -⟩
    · exact .inr (.inl hr)
    · exact .inr (.inr ⟨a, hr⟩)

/-- On NMOS6502 an invocation stated in full selects an instruction: its class code, if it has one, is one of R74. -/
theorem select_of_stated {inv : Invocation} {s : State} (hv : s.variant = .nmos6502)
    (hstated : statedInvocation inv = true) : ∃ i s1, select inv s = .ok (i, s1) := by
  cases inv with
  | compute v o input => exact ⟨_, _, rfl⟩
  | bound o operand => exact ⟨_, _, rfl⟩
  | execute code =>
    have hcode : code.toNat ≤ 4 := by simpa [statedInvocation, Invocation.wellFormed] using hstated
    rcases decodeClass_cases code with ⟨-, i, hi, -⟩ | ⟨hge, -⟩
    · exact ⟨i, s, select_execute_of_decode_ok hv hi⟩
    · omega
  | dispatch => cases hstated

/-- Selecting an instruction changes neither the strap nor memory. -/
theorem select_keeps_variant_mem {inv : Invocation} {s s1 : State} {i : Instr} (h : select inv s = .ok (i, s1)) :
    s1.variant = s.variant ∧ s1.mem = s.mem := by
  rcases select_ok h with ⟨-, -, x, rfl⟩ | ⟨-, -, rfl⟩
  · exact ⟨rfl, rfl⟩
  · exact ⟨rfl, rfl⟩

/-- Totality speaks of memory alone. -/
theorem TotalMem.congr {s t : State} (htotal : TotalMem s) (hmem : t.mem = s.mem) : TotalMem t := by
  rw [TotalMem, hmem]
  exact htotal

/-- On NMOS6502 with a total memory nothing refuses an invocation stated in full. -/
theorem invoke_next_of_stated {inv : Invocation} {s : State} (hv : s.variant = .nmos6502) (htotal : TotalMem s)
    (hstated : statedInvocation inv = true) : ∃ t, invoke inv s = .next t := by
  obtain ⟨i, s1, hsel⟩ := select_of_stated hv hstated
  obtain ⟨hvariant, hmem⟩ := select_keeps_variant_mem hsel
  obtain ⟨s2, hexec⟩ := exec_next_of_totalMem i (hvariant.trans hv) (htotal.congr hmem)
  exact ⟨_, invoke_next.2 ⟨i, s1, s2, hsel, hexec, rfl⟩⟩

/-- No invocation unmaps an address (R56). -/
theorem invoke_keeps_totalMem {inv : Invocation} {s t : State} (h : invoke inv s = .next t) (htotal : TotalMem s) :
    TotalMem t := by
  rcases invoke_keeps_or_stores h with ⟨hmem, -⟩ | ⟨i, hi, hexec⟩
  · exact htotal.congr hmem
  · exact exec_store_totalMem hi hexec htotal

/-- What a state needs to run its program to the end, and what every step of such a run keeps. -/
structure ReadyToRun (s : State) : Prop where
  variant : s.variant = .nmos6502
  total : TotalMem s
  stated : ∀ inv ∈ s.program, statedInvocation inv = true

/-- A ready state with an invocation left takes a step, which takes it off the list and leaves a ready state. -/
theorem ReadyToRun.step_next {s : State} {inv : Invocation} {rest : List Invocation} (hready : ReadyToRun s)
    (hprogram : s.program = inv :: rest) : ∃ t, step s = .next t ∧ t.program = rest ∧ ReadyToRun t := by
  obtain ⟨hv, htotal, hstated⟩ := hready
  rw [hprogram, List.forall_mem_cons] at hstated
  obtain ⟨hfirst, hrest⟩ := hstated
  obtain ⟨t, hinvoke⟩ := invoke_next_of_stated (s := s.setProgram rest) hv htotal hfirst
  have hstep : step s = .next t := (step_cons hprogram).trans hinvoke
  obtain ⟨hvariant, -, -, -, -, _, hlist, -⟩ := whoMayChangeWhat s t hstep
  obtain ⟨-, rfl⟩ := List.cons_eq_cons.1 (hprogram.symm.trans hlist)
  exact ⟨t, hstep, rfl, hvariant.trans hv, invoke_keeps_totalMem hinvoke htotal, hrest⟩

/-- A run goes on from what its first step answers. -/
theorem run_succ_of_step {s t : State} (h : step s = .next t) (k : Nat) :
    Host.Core.run Sys2Proof.core (k + 1) s = Host.Core.run Sys2Proof.core k t := by
  have hcore : Sys2Proof.core.step s = .next t := h
  simp only [Host.Core.run, hcore]

/-- A ready state runs to its end, by induction on the invocations left. -/
theorem ReadyToRun.runsToEnd {s : State} (hready : ReadyToRun s) : ∃ t, RunsToEnd s t ∧ TotalMem t := by
  induction hprogram : s.program generalizing s with
  | nil => exact ⟨s, ⟨by rw [hprogram]; rfl, hprogram⟩, hready.total⟩
  | cons inv rest ih =>
    obtain ⟨u, hstep, hrest, hreadyNext⟩ := hready.step_next hprogram
    obtain ⟨t, ⟨hrun, hend⟩, htotal⟩ := ih hreadyNext hrest
    refine ⟨t, ⟨?_, hend⟩, htotal⟩
    rw [hprogram, List.length_cons, run_succ_of_step hstep, ← hrest]
    exact hrun

/-- Settles O44: the statement's three hypotheses make the state ready. -/
theorem everyStatedProgramRunsToItsEnd : Obligations.EveryStatedProgramRunsToItsEnd :=
  fun _ hv htotal hstated => ReadyToRun.runsToEnd ⟨hv, htotal, hstated⟩

end Sys2Proof.Machine
end

section
/-! A run ends where its list of invocations ends (obligation O43). -/

namespace Sys2Proof.Machine

/-- The step of a state with no invocation left is the end of the run (R182, log 4). -/
theorem step_nil {s : State} (h : s.program = []) : step s = .fault .endOfRun := by
  simp [step, h]

/-- Settles O43: the empty list is the one end of run, since an invocation that is left never faults. -/
theorem runEndsWhenTheListEnds : Obligations.RunEndsWhenTheListEnds := by
  intro s
  cases hprogram : s.program with
  | nil => exact iff_of_true ⟨.endOfRun, step_nil hprogram⟩ rfl
  | cons inv rest =>
    have hnoFault : ¬ ∃ f, step s = .fault f := by
      rintro ⟨f, hf⟩
      exact invoke_not_fault inv (s.setProgram rest) f ((step_cons hprogram).symm.trans hf)
    exact iff_of_false hnoFault (List.cons_ne_nil inv rest)

end Sys2Proof.Machine
end
